-- ==== Sys2Proof/Word.lean ====
section
/-! DEFINITION. The value type of BigInt CORE (spec/10_state.md R10) and the plain words of its interface. -/

namespace Sys2Proof

/-- One bit; `true` is 1. -/
abbrev Bit := Bool

/-- A bit vector of any length, INDEX 0 THE MOST SIGNIFICANT BIT (00_scope.md R6). -/
abbrev Bits := List Bit

/-- A register index field of the command word, four bits (30_encoding.md R41). -/
abbrev Reg := BitVec 4

/-- A command word, bit 31 the most significant (00_scope.md R7; 30_encoding.md R40). -/
abbrev Cmd := BitVec 32

/-- Rendered text: 8-bit character codes, first character first (49_render.md R140, R145). -/
abbrev Text := List (BitVec 8)

/-- A BigInt value `(sign, mag)`: `sign = true` is negative, `mag` is most significant bit first
(10_state.md R10). Being canonical (R11) is a predicate, `BigVal.canonical`, that every step keeps. -/
structure BigVal where
  sign : Bit
  mag : Bits
  deriving DecidableEq, Repr

/-- `+[0]`, the canonical zero (10_state.md R11, R21). -/
def BigVal.zero : BigVal := ⟨false, [false]⟩

/-- `+[1]`, the canonical one, the constant of INC and DEC (44_inc_dec.md, D28). -/
def BigVal.one : BigVal := ⟨false, [true]⟩

end Sys2Proof
end

