-- ==== Sys2Proof/Config.lean ====
section
/-! DEFINITION. The open parameters of the implementation (spec/00_scope.md R5): a configuration record,
constant for the life of the block (10_state.md R23). The spec leaves no value undetermined, so there is
no free value here (93_implementation_defined.md, the paragraph that closes part 1). -/

namespace Sys2Proof

/-- The configuration `(NATW, NREG, MAXBITS, ACCW)`; `none` is the spec's `none` (00_scope.md R5). -/
structure Config where
  /-- width of the native integer and of the `imm` port -/
  natw : Nat
  /-- number of value registers -/
  nreg : Nat
  /-- the longest magnitude a value register can hold, `none` for no bound -/
  maxbits : Option Nat
  /-- width of the decimal renderer's accumulator, `none` for an exact renderer -/
  accw : Option Nat
  deriving DecidableEq, Repr

/-- The defaults of 00_scope.md R5. No rule depends on them; `State.reset` needs some configuration
(DESIGN CHOICE, unsafe: log entry 1). -/
def Config.standard : Config := { natw := 32, nreg := 16, maxbits := none, accw := some 64 }

/-- The ranges of 00_scope.md R5: `NATW >= 2`, `1 <= NREG <= 16`, `MAXBITS` and `ACCW` `none` or `>= 1`. -/
abbrev Config.wf (c : Config) : Prop :=
  2 ≤ c.natw ∧ 1 ≤ c.nreg ∧ c.nreg ≤ 16 ∧ (∀ n ∈ c.maxbits, 1 ≤ n) ∧ (∀ n ∈ c.accw, 1 ≤ n)

end Sys2Proof
end

