-- ==== Sys2Proof/Syntax.lean ====
section
/-! DEFINITION. The 24 commands of spec/opcode_table.json, one constructor per row, with the operands their
format uses (spec/30_encoding.md R42). `imm` is the value of the `imm` port as an unsigned number; each
command reads it as its rule says (R43). -/

namespace Sys2Proof

/-- A command: the word's opcode and used register fields, and the `imm` port value of the formats RI and
R2I (30_encoding.md R40 to R44). -/
inductive Instr where
  /-- ZERO, 41_construct.md R90 -/
  | zero (rd : Reg)
  /-- FROMINT, 41_construct.md R91 -/
  | fromint (rd : Reg) (imm : Nat)
  /-- ADD, 42_add_sub.md R95 -/
  | add (rd rs1 rs2 : Reg)
  /-- SUB, 42_add_sub.md R96 -/
  | sub (rd rs1 rs2 : Reg)
  /-- MUL, 43_multiply.md R101 -/
  | mul (rd rs1 rs2 : Reg)
  /-- INC, 44_inc_dec.md R105 -/
  | inc (rd : Reg)
  /-- DEC, 44_inc_dec.md R106 -/
  | dec (rd : Reg)
  /-- NEG, 45_unary.md R110 -/
  | neg (rd rs1 : Reg)
  /-- MOV, 45_unary.md R111 -/
  | mov (rd rs1 : Reg)
  /-- ABS, 45_unary.md R112 -/
  | abs (rd rs1 : Reg)
  /-- NOT, 45_unary.md R113 -/
  | not (rd rs1 : Reg)
  /-- CEQ, 46_compare.md R122 -/
  | ceq (rs1 rs2 : Reg)
  /-- CNE, 46_compare.md R123 -/
  | cne (rs1 rs2 : Reg)
  /-- CLT, 46_compare.md R124 -/
  | clt (rs1 rs2 : Reg)
  /-- CGT, 46_compare.md R125 -/
  | cgt (rs1 rs2 : Reg)
  /-- CLE, 46_compare.md R126 -/
  | cle (rs1 rs2 : Reg)
  /-- CGE, 46_compare.md R127 -/
  | cge (rs1 rs2 : Reg)
  /-- AND, 47_bitwise.md R130 -/
  | and (rd rs1 rs2 : Reg)
  /-- OR, 47_bitwise.md R131 -/
  | or (rd rs1 rs2 : Reg)
  /-- XOR, 47_bitwise.md R132 -/
  | xor (rd rs1 rs2 : Reg)
  /-- SHL, 48_shift.md R136 -/
  | shl (rd rs1 : Reg) (imm : Nat)
  /-- SHR, 48_shift.md R137 -/
  | shr (rd rs1 : Reg) (imm : Nat)
  /-- REND10, 49_render.md R141 -/
  | rend10 (rs1 : Reg)
  /-- REND2, 49_render.md R143 -/
  | rend2 (rs1 : Reg)
  deriving DecidableEq, Repr

/-- The seven formats (30_encoding.md R42). -/
inductive Format where
  | r3 | r2 | r1 | ri | r2i | c2 | s1
  deriving DecidableEq, Repr

/-- Each command's format (30_encoding.md R42, last column). -/
def Instr.format : Instr → Format
  | .zero _ | .inc _ | .dec _ => .r1
  | .fromint _ _ => .ri
  | .add _ _ _ | .sub _ _ _ | .mul _ _ _ | .and _ _ _ | .or _ _ _ | .xor _ _ _ => .r3
  | .neg _ _ | .mov _ _ | .abs _ _ | .not _ _ => .r2
  | .ceq _ _ | .cne _ _ | .clt _ _ | .cgt _ _ | .cle _ _ | .cge _ _ => .c2
  | .shl _ _ _ | .shr _ _ _ => .r2i
  | .rend10 _ | .rend2 _ => .s1

/-- The register fields a command uses (30_encoding.md R42). -/
def Instr.regs : Instr → List Reg
  | .zero rd | .inc rd | .dec rd | .fromint rd _ => [rd]
  | .add rd rs1 rs2 | .sub rd rs1 rs2 | .mul rd rs1 rs2
  | .and rd rs1 rs2 | .or rd rs1 rs2 | .xor rd rs1 rs2 => [rd, rs1, rs2]
  | .neg rd rs1 | .mov rd rs1 | .abs rd rs1 | .not rd rs1 | .shl rd rs1 _ | .shr rd rs1 _ => [rd, rs1]
  | .ceq rs1 rs2 | .cne rs1 rs2 | .clt rs1 rs2 | .cgt rs1 rs2 | .cle rs1 rs2 | .cge rs1 rs2 => [rs1, rs2]
  | .rend10 rs1 | .rend2 rs1 => [rs1]

/-- The register a command writes on success, if it writes one (10_state.md R14). -/
def Instr.dest : Instr → Option Reg
  | .zero rd | .inc rd | .dec rd | .fromint rd _
  | .add rd _ _ | .sub rd _ _ | .mul rd _ _ | .and rd _ _ | .or rd _ _ | .xor rd _ _
  | .neg rd _ | .mov rd _ | .abs rd _ | .not rd _ | .shl rd _ _ | .shr rd _ _ => some rd
  | .ceq _ _ | .cne _ _ | .clt _ _ | .cgt _ _ | .cle _ _ | .cge _ _ | .rend10 _ | .rend2 _ => none

/-- The `imm` port value a command carries; 0 for the formats that ignore the port (30_encoding.md R43). -/
def Instr.imm : Instr → Nat
  | .fromint _ n | .shl _ _ n | .shr _ _ n => n
  | .zero _ | .inc _ | .dec _ | .add _ _ _ | .sub _ _ _ | .mul _ _ _ | .and _ _ _ | .or _ _ _ | .xor _ _ _
  | .neg _ _ | .mov _ _ | .abs _ _ | .not _ _ | .ceq _ _ | .cne _ _ | .clt _ _ | .cgt _ _ | .cle _ _ | .cge _ _
  | .rend10 _ | .rend2 _ => 0

/-- A command writes the compare flag (46_compare.md; 10_state.md R15). -/
def Instr.isCompare : Instr → Bool
  | .ceq _ _ | .cne _ _ | .clt _ _ | .cgt _ _ | .cle _ _ | .cge _ _ => true
  | .zero _ | .inc _ | .dec _ | .fromint _ _ | .add _ _ _ | .sub _ _ _ | .mul _ _ _ | .and _ _ _ | .or _ _ _
  | .xor _ _ _ | .neg _ _ | .mov _ _ | .abs _ _ | .not _ _ | .shl _ _ _ | .shr _ _ _ | .rend10 _ | .rend2 _ => false

/-- The format uses the `rd` field (30_encoding.md R42). -/
def Format.usesRd : Format → Bool
  | .r3 | .r2 | .r1 | .ri | .r2i => true
  | .c2 | .s1 => false

/-- The format uses the `rs1` field (30_encoding.md R42). -/
def Format.usesRs1 : Format → Bool
  | .r3 | .r2 | .r2i | .c2 | .s1 => true
  | .r1 | .ri => false

/-- The format uses the `rs2` field (30_encoding.md R42). -/
def Format.usesRs2 : Format → Bool
  | .r3 | .c2 => true
  | .r2 | .r1 | .ri | .r2i | .s1 => false

/-- The command's mnemonic, as spec/opcode_table.json spells it (30_encoding.md R44). -/
def Instr.mnemonic : Instr → String
  | .zero _ => "ZERO"
  | .fromint _ _ => "FROMINT"
  | .add _ _ _ => "ADD"
  | .sub _ _ _ => "SUB"
  | .mul _ _ _ => "MUL"
  | .inc _ => "INC"
  | .dec _ => "DEC"
  | .neg _ _ => "NEG"
  | .mov _ _ => "MOV"
  | .abs _ _ => "ABS"
  | .not _ _ => "NOT"
  | .ceq _ _ => "CEQ"
  | .cne _ _ => "CNE"
  | .clt _ _ => "CLT"
  | .cgt _ _ => "CGT"
  | .cle _ _ => "CLE"
  | .cge _ _ => "CGE"
  | .and _ _ _ => "AND"
  | .or _ _ _ => "OR"
  | .xor _ _ _ => "XOR"
  | .shl _ _ _ => "SHL"
  | .shr _ _ _ => "SHR"
  | .rend10 _ => "REND10"
  | .rend2 _ => "REND2"

end Sys2Proof
end

