-- ==== Sys2Proof/WellFormed.lean ====
section
/-! DEFINITION. A command is well formed for a configuration when every register it names exists
(spec/30_encoding.md R45 step 3, R47) and its `imm` value fits the `NATW`-bit port (R43). -/

namespace Sys2Proof

/-- Every register field the command uses holds an index below `NREG` (30_encoding.md R45 step 3). -/
def Instr.regsExist (nreg : Nat) (i : Instr) : Bool := i.regs.all fun r => r.toNat < nreg

/-- The `imm` value is one the `NATW`-bit port can carry (30_encoding.md R43). -/
def Instr.immFits (natw : Nat) (i : Instr) : Bool := i.imm < 2 ^ natw

/-- Well formed under a configuration. -/
def Instr.wf (c : Config) (i : Instr) : Bool := i.regsExist c.nreg && i.immFits c.natw

end Sys2Proof
end

