-- ==== Sys2Proof/Decode.lean ====
section
/-! DEFINITION. The decoder, total on all command words and rejecting by name (spec/30_encoding.md R45, R47),
and after it the encoder, written from the same tables (R41, R42, R44, R49). -/

namespace Sys2Proof

/-- Why a word decodes to no command (30_encoding.md R45, R47). Each of them raises ILLEGAL (R151). -/
inductive DecodeError where
  /-- step 1: the opcode is not one of the 24 assigned values -/
  | unassignedOpcode
  /-- step 2: `cmd[11:0]` or a register field the format does not use is not zero -/
  | unusedFieldNotZero
  /-- step 3: a register field the format uses holds an index `>= NREG` -/
  | noSuchRegister
  deriving DecidableEq, Repr

/-- `cmd[31:24]` (30_encoding.md R41). -/
def opcodeOf (w : Cmd) : BitVec 8 := w.extractLsb' 24 8

/-- `cmd[23:20]` (30_encoding.md R41). -/
def rdOf (w : Cmd) : Reg := w.extractLsb' 20 4

/-- `cmd[19:16]` (30_encoding.md R41). -/
def rs1Of (w : Cmd) : Reg := w.extractLsb' 16 4

/-- `cmd[15:12]` (30_encoding.md R41). -/
def rs2Of (w : Cmd) : Reg := w.extractLsb' 12 4

/-- The bits that must match, per format (30_encoding.md R42). -/
def Format.mask : Format → Cmd
  | .r3 => 0xFF000FFF#32
  | .r2 => 0xFF00FFFF#32
  | .r1 => 0xFF0FFFFF#32
  | .ri => 0xFF0FFFFF#32
  | .r2i => 0xFF00FFFF#32
  | .c2 => 0xFFF00FFF#32
  | .s1 => 0xFFF0FFFF#32

/-- One row of the opcode map (30_encoding.md R44): the opcode, the format, and the command the fields
`rd`, `rs1`, `rs2` and the port value name. -/
structure Row where
  opcode : BitVec 8
  format : Format
  build : Reg → Reg → Reg → Nat → Instr

/-- The rows of 30_encoding.md R44: construction, addition, multiplication, increment. -/
def rowsArith : List Row :=
  [⟨0x01#8, .r1, fun rd _ _ _ => .zero rd⟩,
   ⟨0x02#8, .ri, fun rd _ _ n => .fromint rd n⟩,
   ⟨0x10#8, .r3, fun rd a b _ => .add rd a b⟩,
   ⟨0x11#8, .r3, fun rd a b _ => .sub rd a b⟩,
   ⟨0x18#8, .r3, fun rd a b _ => .mul rd a b⟩,
   ⟨0x20#8, .r1, fun rd _ _ _ => .inc rd⟩,
   ⟨0x21#8, .r1, fun rd _ _ _ => .dec rd⟩]

/-- The rows of 30_encoding.md R44: unary and compare. -/
def rowsUnaryCompare : List Row :=
  [⟨0x28#8, .r2, fun rd a _ _ => .neg rd a⟩,
   ⟨0x29#8, .r2, fun rd a _ _ => .mov rd a⟩,
   ⟨0x2A#8, .r2, fun rd a _ _ => .abs rd a⟩,
   ⟨0x2B#8, .r2, fun rd a _ _ => .not rd a⟩,
   ⟨0x30#8, .c2, fun _ a b _ => .ceq a b⟩,
   ⟨0x31#8, .c2, fun _ a b _ => .cne a b⟩,
   ⟨0x32#8, .c2, fun _ a b _ => .clt a b⟩,
   ⟨0x33#8, .c2, fun _ a b _ => .cgt a b⟩,
   ⟨0x34#8, .c2, fun _ a b _ => .cle a b⟩,
   ⟨0x35#8, .c2, fun _ a b _ => .cge a b⟩]

/-- The rows of 30_encoding.md R44: bitwise, shift, rendering. -/
def rowsBitShiftRender : List Row :=
  [⟨0x40#8, .r3, fun rd a b _ => .and rd a b⟩,
   ⟨0x41#8, .r3, fun rd a b _ => .or rd a b⟩,
   ⟨0x42#8, .r3, fun rd a b _ => .xor rd a b⟩,
   ⟨0x48#8, .r2i, fun rd a _ n => .shl rd a n⟩,
   ⟨0x49#8, .r2i, fun rd a _ n => .shr rd a n⟩,
   ⟨0x50#8, .s1, fun _ a _ _ => .rend10 a⟩,
   ⟨0x51#8, .s1, fun _ a _ _ => .rend2 a⟩]

/-- The opcode map, 24 rows (30_encoding.md R44). -/
def opcodeTable : List Row := rowsArith ++ rowsUnaryCompare ++ rowsBitShiftRender

/-- The `imm` port has `NATW` wires, so it carries a number below `2^NATW` (10_state.md R22; 30_encoding.md
R43; DEDUCED, safe: log entry 10). -/
def sampleImm (c : Config) (imm : Nat) : Nat := imm % 2 ^ c.natw

/-- A row's command word with every register field 0: `match` of the opcode table, `op << 24`. -/
def Row.matchWord (r : Row) : Cmd := r.opcode.setWidth 32 <<< 24

/-- The decoding procedure (30_encoding.md R45): opcode, then mask, then register indices. -/
def decode (c : Config) (w : Cmd) (imm : Nat) : Except DecodeError Instr :=
  match opcodeTable.find? (fun r => r.opcode == opcodeOf w) with
  | none => .error .unassignedOpcode
  | some r =>
    if w &&& r.format.mask = r.matchWord then
      if (r.build (rdOf w) (rs1Of w) (rs2Of w) (sampleImm c imm)).regsExist c.nreg then
        .ok (r.build (rdOf w) (rs1Of w) (rs2Of w) (sampleImm c imm))
      else .error .noSuchRegister
    else .error .unusedFieldNotZero

/-- The word of an opcode and its fields: `(opcode << 24) | (rd << 20) | (rs1 << 16) | (rs2 << 12)`
(30_encoding.md R49). -/
def assemble (op : BitVec 8) (rd rs1 rs2 : Reg) : Cmd :=
  (op.setWidth 32 <<< 24) ||| (rd.setWidth 32 <<< 20) ||| (rs1.setWidth 32 <<< 16) ||| (rs2.setWidth 32 <<< 12)

/-- The opcode of each command (30_encoding.md R44). -/
def Instr.opcode : Instr → BitVec 8
  | .zero _ => 0x01#8
  | .fromint _ _ => 0x02#8
  | .add _ _ _ => 0x10#8
  | .sub _ _ _ => 0x11#8
  | .mul _ _ _ => 0x18#8
  | .inc _ => 0x20#8
  | .dec _ => 0x21#8
  | .neg _ _ => 0x28#8
  | .mov _ _ => 0x29#8
  | .abs _ _ => 0x2A#8
  | .not _ _ => 0x2B#8
  | .ceq _ _ => 0x30#8
  | .cne _ _ => 0x31#8
  | .clt _ _ => 0x32#8
  | .cgt _ _ => 0x33#8
  | .cle _ _ => 0x34#8
  | .cge _ _ => 0x35#8
  | .and _ _ _ => 0x40#8
  | .or _ _ _ => 0x41#8
  | .xor _ _ _ => 0x42#8
  | .shl _ _ _ => 0x48#8
  | .shr _ _ _ => 0x49#8
  | .rend10 _ => 0x50#8
  | .rend2 _ => 0x51#8

/-- The command word of a command; an unused register field is 0 (30_encoding.md R46, R49). The value that
goes with it on the `imm` port is `Instr.imm`. -/
def encode (i : Instr) : Cmd :=
  match i with
  | .zero rd | .inc rd | .dec rd | .fromint rd _ => assemble i.opcode rd 0 0
  | .add rd a b | .sub rd a b | .mul rd a b | .and rd a b | .or rd a b | .xor rd a b => assemble i.opcode rd a b
  | .neg rd a | .mov rd a | .abs rd a | .not rd a | .shl rd a _ | .shr rd a _ => assemble i.opcode rd a 0
  | .ceq a b | .cne a b | .clt a b | .cgt a b | .cle a b | .cge a b => assemble i.opcode 0 a b
  | .rend10 a | .rend2 a => assemble i.opcode 0 a 0

/-- The rows of spec/opcode_table.json as data: mnemonic, `match`, `mask`. -/
def tableRows : List (String × Cmd × Cmd) :=
  [("ZERO", 0x01000000#32, 0xFF0FFFFF#32), ("FROMINT", 0x02000000#32, 0xFF0FFFFF#32),
   ("ADD", 0x10000000#32, 0xFF000FFF#32), ("SUB", 0x11000000#32, 0xFF000FFF#32),
   ("MUL", 0x18000000#32, 0xFF000FFF#32), ("INC", 0x20000000#32, 0xFF0FFFFF#32),
   ("DEC", 0x21000000#32, 0xFF0FFFFF#32), ("NEG", 0x28000000#32, 0xFF00FFFF#32),
   ("MOV", 0x29000000#32, 0xFF00FFFF#32), ("ABS", 0x2A000000#32, 0xFF00FFFF#32),
   ("NOT", 0x2B000000#32, 0xFF00FFFF#32), ("CEQ", 0x30000000#32, 0xFFF00FFF#32)] ++
  [("CNE", 0x31000000#32, 0xFFF00FFF#32), ("CLT", 0x32000000#32, 0xFFF00FFF#32),
   ("CGT", 0x33000000#32, 0xFFF00FFF#32), ("CLE", 0x34000000#32, 0xFFF00FFF#32),
   ("CGE", 0x35000000#32, 0xFFF00FFF#32), ("AND", 0x40000000#32, 0xFF000FFF#32),
   ("OR", 0x41000000#32, 0xFF000FFF#32), ("XOR", 0x42000000#32, 0xFF000FFF#32),
   ("SHL", 0x48000000#32, 0xFF00FFFF#32), ("SHR", 0x49000000#32, 0xFF00FFFF#32),
   ("REND10", 0x50000000#32, 0xFFF0FFFF#32), ("REND2", 0x51000000#32, 0xFFF0FFFF#32)]

/-- The word whose table bits are `w`; the bits above `nbits` are 0. The table's bit 0 is `cmd[0]` (DEDUCED, safe:
log entry 11). -/
def tableWord (nbits w : Nat) : Cmd := BitVec.ofNat 32 (w % 2 ^ nbits)

/-- What the decoder reads from a table word with 0 on the `imm` port, under the default configuration
(every 4-bit index exists there). -/
def decodeTableWord (nbits w : Nat) : Option Instr :=
  (decode Config.standard (tableWord nbits w) 0).toOption

end Sys2Proof
end

