-- ==== Sys2Proof/Machine/State.lean ====
section
/-! DEFINITION. The state of BigInt CORE as plain data (spec/10_state.md R13 to R23), its reset value, and the
reasons a step can stop. The block has no memory and no program counter (R17, R18). -/

namespace Sys2Proof.Machine

/-- The five fault causes of the block (60_exceptions.md R150). A fault is a NEXT state of the machine
(R155), not a stop. -/
inductive Cause where
  /-- the word decodes to no command (R151) -/
  | illegal
  /-- FROMINT of the minimum native integer (R152) -/
  | range
  /-- SHR by more than the bit-length (R154) -/
  | shiftRange
  /-- REND10 of a magnitude longer than the accumulator (R156) -/
  | rendOvf
  /-- a result magnitude longer than `MAXBITS` (R153) -/
  | capacity
  deriving DecidableEq, Repr

/-- The response to one command (10_state.md R19). -/
structure Response where
  /-- 1 the command completed, 0 it faulted -/
  ok : Bit
  /-- 0, or the cause code 1 to 5 -/
  cause : BitVec 3
  /-- `T` after the command -/
  t : Bit
  /-- the rendered text, empty for every other command and for every fault -/
  txt : Text
  deriving DecidableEq, Repr

/-- What the host may do between commands (60_exceptions.md R166): assert `rst`, or present a command word
with a value on the `imm` port (10_state.md R22, R40). -/
inductive HostMove where
  | reset
  | command (cmd : Cmd) (imm : Nat)
  deriving DecidableEq, Repr

/-- The state. `regs`, `t`, `fsr` and the response are the block's (10_state.md R13, R15, R16, R19); `cfg`,
`program` and `pc` are the parameters of the spec's step function and the model's index (R17, R23), which
stand here because `step` has one argument (DESIGN CHOICE, log entries 1 and 2). -/
structure State where
  /-- `(NATW, NREG, MAXBITS, ACCW)`; no step changes it (R23) -/
  cfg : Config
  /-- `V[0] .. V[NREG-1]` (R13) -/
  regs : List BigVal
  /-- the compare flag `T` (R15) -/
  t : Bit
  /-- the fault status register (R16) -/
  fsr : BitVec 6
  /-- the responses since reset, oldest first; the `resp` port shows the last (R19, R22, R160;
  DESIGN CHOICE, safe: log entry 3) -/
  responses : List Response
  /-- the host's list (R17; 60_exceptions.md R166) -/
  program : List HostMove
  /-- the index into the host's list (R17) -/
  pc : Nat
  deriving DecidableEq, Repr

/-- Why a step stops. -/
inductive Fault where
  /-- Raised by `step` when the host's list is exhausted: the run has ended (60_exceptions.md R160), the host
  presents nothing, and the spec defines a step only for a presented command (10_state.md R22). Safe: the
  model stops where the block merely waits (DESIGN CHOICE, log entry 4). No instruction raises it. -/
  | runEnded
  deriving DecidableEq, Repr

/-- Why the model gives an instruction no meaning. -/
inductive Refusal where
  /-- Raised by an arm of `exec` whose instruction has no meaning yet, by its mnemonic. Safe: nothing is
  claimed of it. No arm raises it now. -/
  | notModelled (mnemonic : String)
  deriving DecidableEq, Repr

/-- Reset under a configuration with a host's list (10_state.md R21; 70_reset_and_hazards.md R170; R17:
the index starts at 0). -/
def State.resetWith (c : Config) (program : List HostMove) : State :=
  { cfg := c, regs := List.replicate c.nreg BigVal.zero, t := false, fsr := 0, responses := [],
    program := program, pc := 0 }

/-- The machine right after reset, default configuration, nothing in the host's list (DESIGN CHOICE, unsafe
and safe: log entries 1, 2). -/
def State.reset : State := State.resetWith Config.standard []

end Sys2Proof.Machine
end

