-- ==== Sys2Proof/Machine/Ops.lean ====
section
/-! DEFINITION. The named operations on the state: registers, flag, fault status, response, TAKING A FAULT (the
one shared operation, spec/60_exceptions.md R155), the end of every command (10_state.md R24), and the
host's side: the move it presents, reset, and placing a command for the next step. There is no return from
a fault, because a fault changes no control state (60_exceptions.md R159). -/

namespace Sys2Proof.Machine

/-- `V[r]` (10_state.md R13). Beyond `NREG` there is no register, and no command that names one gets this
far (`State.guarded`); the total function answers `+[0]` there (DESIGN CHOICE, safe: log entry 9). -/
def State.readReg (s : State) (r : Reg) : BigVal := s.regs.getD r.toNat BigVal.zero

/-- `V[r] <- v` (10_state.md R13). -/
def State.writeReg (s : State) (r : Reg) (v : BigVal) : State := { s with regs := s.regs.set r.toNat v }

/-- `T <- b` (10_state.md R15). -/
def State.writeT (s : State) (b : Bit) : State := { s with t := b }

/-- The code of a cause (60_exceptions.md R150). -/
def Cause.code : Cause → Nat
  | .illegal => 1
  | .range => 2
  | .shiftRange => 3
  | .rendOvf => 4
  | .capacity => 5

/-- The `FSR` bit of a cause: bit `c` for code `c` (10_state.md R16). -/
def Cause.fsrBit (c : Cause) : BitVec 6 := 1#6 <<< c.code

/-- `FSR[c] <- 1`; the other bits keep their values (10_state.md R16; 60_exceptions.md R155). -/
def State.setFsr (s : State) (c : Cause) : State := { s with fsr := s.fsr ||| c.fsrBit }

/-- Answer the command with `r`, and the index advances by 1 (10_state.md R17, R19, R24). -/
def State.respond (s : State) (r : Response) : State :=
  { s with responses := s.responses ++ [r], pc := s.pc + 1 }

/-- The end of a command that completed: `resp <- (1, 0, T, txt)` (10_state.md R24). -/
def State.complete (s : State) (txt : Text) : State := s.respond ⟨true, 0, s.t, txt⟩

/-- TAKING A FAULT with cause `c`: `V` and `T` stay, `FSR[c] <- 1`, `resp <- (0, c, T, empty)`, the index
advances; control goes nowhere (60_exceptions.md R155). -/
def State.raise (s : State) (c : Cause) : State :=
  (s.setFsr c).respond ⟨false, BitVec.ofNat 3 c.code, s.t, []⟩

/-- `MAXBITS` is a number and the magnitude is longer (60_exceptions.md R153). -/
def tooLong (c : Config) (v : BigVal) : Bool :=
  match c.maxbits with
  | none => false
  | some n => decide (n < v.mag.length)

/-- What executing a command's rule yields: a value for a register, a bit for `T`, a text, or a fault
(10_state.md R24). -/
inductive Result where
  | value (rd : Reg) (v : BigVal)
  | flag (b : Bit)
  | text (txt : Text)
  | fault (c : Cause)
  deriving DecidableEq, Repr

/-- The rest of the frame: the CAPACITY check on a value, the one write, the response (10_state.md R24). -/
def State.finish (s : State) (r : Result) : State :=
  match r with
  | .value rd v => if tooLong s.cfg v then s.raise .capacity else (s.writeReg rd v).complete []
  | .flag b => (s.writeT b).complete []
  | .text txt => s.complete txt
  | .fault c => s.raise c

/-- Every register of the list exists. -/
def State.hasRegs (s : State) (used : List Reg) : Bool := used.all fun r => r.toNat < s.cfg.nreg

/-- The frame of every command (10_state.md R24): a used register index `>= NREG` is ILLEGAL (30_encoding.md
R47), before any register counts; otherwise the result is finished. The decoder makes the same check (R45
step 3), so a step never meets it here; with it `exec` obeys R47 on every command as well (DEDUCED, safe: log entry 8). -/
def State.guarded (s : State) (used : List Reg) (r : Result) : Host.Outcome State Fault Refusal :=
  .next (if s.hasRegs used then s.finish r else s.raise .illegal)

/-- The host's next move: the entry of its list at the index (10_state.md R17). -/
def State.presented (s : State) : Option HostMove := s.program[s.pc]?

/-- `rst`: every register `+[0]`, `T = 0`, `FSR = 0`, no response pending (70_reset_and_hazards.md R170); the
host goes on with its list (DESIGN CHOICE, safe: log entry 6). -/
def State.takeReset (s : State) : State :=
  { s with regs := List.replicate s.cfg.nreg BigVal.zero, t := false, fsr := 0, responses := [],
           pc := s.pc + 1 }

/-- A word that decodes to no command, whatever the decoder's reason, raises ILLEGAL (30_encoding.md R47;
60_exceptions.md R151). -/
def State.illegalWord (s : State) (_ : DecodeError) : State := s.raise .illegal

/-- A list with `m` at index `n`; missing entries before it are filled with `reset`, which an index that is
already past them never meets. -/
def placeAt : List HostMove → Nat → HostMove → List HostMove
  | [], 0, m => [m]
  | _ :: rest, 0, m => m :: rest
  | [], n + 1, m => .reset :: placeAt [] n m
  | h :: rest, n + 1, m => h :: placeAt rest n m

/-- The host presents `m` next: it stands at the index of the host's list (DESIGN CHOICE, safe: log entry 2). -/
def State.present (s : State) (m : HostMove) : State := { s with program := placeAt s.program s.pc m }

/-- The `resp` port: the response to the command just executed, none before the first (10_state.md R21, R22). -/
def State.respPort (s : State) : Option Response := s.responses.getLast?

/-- The `t` port (10_state.md R22). -/
def State.tPort (s : State) : Bit := s.t

/-- The `fsr` port (10_state.md R22). Bit 0 is hardwired 0 (R16): it reads 0 in every state, and no cause sets it. -/
def State.fsrPort (s : State) : BitVec 6 := s.fsr &&& 0b111110#6

end Sys2Proof.Machine
end

