-- ==== Sys2Proof/Machine/Operands.lean ====
section
/-! DEFINITION. The operand forms: one frame per format of spec/30_encoding.md R42, and the two readings of the
`imm` port (R43). A frame reads every source it names from the state before the command, hands them to the
command's rule, and finishes with its result (10_state.md R24; 70_reset_and_hazards.md R175). -/

namespace Sys2Proof.Machine

/-- `sint(imm)`: the `NATW` bits of the port as a two's-complement integer (00_scope.md R7). -/
def sint (natw imm : Nat) : Int := (BitVec.ofNat natw imm).toInt

/-- `uint(imm)`: the `NATW` bits of the port as an unsigned number (00_scope.md R7). -/
def uint (natw imm : Nat) : Nat := imm % 2 ^ natw

/-- A rule that yields a value for `rd` or raises its own fault. -/
def valueOrFault (rd : Reg) : Except Cause BigVal → Result
  | .ok v => .value rd v
  | .error c => .fault c

/-- A rule that yields a text or raises its own fault. -/
def textOrFault : Except Cause Text → Result
  | .ok x => .text x
  | .error c => .fault c

/-- Format R3: destination, receiver, second source; `imm` ignored (30_encoding.md R42). -/
def State.runR3 (s : State) (rd rs1 rs2 : Reg) (f : BigVal → BigVal → BigVal) :
    Host.Outcome State Fault Refusal :=
  s.guarded [rd, rs1, rs2] (.value rd (f (s.readReg rs1) (s.readReg rs2)))

/-- Format R2: destination, source; `imm` ignored (30_encoding.md R42). -/
def State.runR2 (s : State) (rd rs1 : Reg) (f : BigVal → BigVal) : Host.Outcome State Fault Refusal :=
  s.guarded [rd, rs1] (.value rd (f (s.readReg rs1)))

/-- Format R1: one register, destination and for INC and DEC also source; `imm` ignored (30_encoding.md R42). -/
def State.runR1 (s : State) (rd : Reg) (f : BigVal → BigVal) : Host.Outcome State Fault Refusal :=
  s.guarded [rd] (.value rd (f (s.readReg rd)))

/-- Format RI: destination and `sint(imm)` (30_encoding.md R42, R43). -/
def State.runRI (s : State) (rd : Reg) (imm : Nat) (f : Int → Except Cause BigVal) :
    Host.Outcome State Fault Refusal :=
  s.guarded [rd] (valueOrFault rd (f (sint s.cfg.natw imm)))

/-- Format R2I: destination, source and `uint(imm)` (30_encoding.md R42, R43). -/
def State.runR2I (s : State) (rd rs1 : Reg) (imm : Nat) (f : BigVal → Nat → Except Cause BigVal) :
    Host.Outcome State Fault Refusal :=
  s.guarded [rd, rs1] (valueOrFault rd (f (s.readReg rs1) (uint s.cfg.natw imm)))

/-- Format C2: two sources, the result goes to `T`; `imm` ignored (30_encoding.md R42; 10_state.md R15). -/
def State.runC2 (s : State) (rs1 rs2 : Reg) (f : BigVal → BigVal → Bit) : Host.Outcome State Fault Refusal :=
  s.guarded [rs1, rs2] (.flag (f (s.readReg rs1) (s.readReg rs2)))

/-- Format S1: one source, the result is a text; `imm` ignored (30_encoding.md R42). -/
def State.runS1 (s : State) (rs1 : Reg) (f : BigVal → Except Cause Text) : Host.Outcome State Fault Refusal :=
  s.guarded [rs1] (textOrFault (f (s.readReg rs1)))

end Sys2Proof.Machine
end

