-- ==== Sys2Proof/Machine/Value.lean ====
section
/-! DEFINITION. Bit vectors and BigInt values as numbers (spec/00_scope.md R6; 10_state.md R11, R12). -/

namespace Sys2Proof.Machine

/-- The number a bit is. -/
def bitNat (b : Bit) : Nat := if b then 1 else 0

/-- `zeros(k)` (00_scope.md R6). -/
def zeros (k : Nat) : Bits := List.replicate k false

/-- `uval(X)`: the bit at sequence index `i` weighs `2^(n-1-i)` (00_scope.md R6). -/
def uval : Bits → Nat
  | [] => 0
  | b :: x => bitNat b * 2 ^ x.length + uval x

/-- `bv(w, v)`: the vector of length `w` with `uval = v`, for `v < 2^w` (00_scope.md R6). -/
def bv : Nat → Nat → Bits
  | 0, _ => []
  | w + 1, v => v.testBit w :: bv w v

/-- Clauses 1 and 2 of canonical form: not empty, and `[0]` or a leading 1 (10_state.md R11; the one-bit
magnitude `[1]` is the integer one, 90_conflicts.md C1). -/
abbrev CanonicalMag (x : Bits) : Prop := x = [false] ∨ x.head? = some true

end Sys2Proof.Machine

namespace Sys2Proof

/-- Canonical form: clauses 1 and 2 on the magnitude, and no negative zero (10_state.md R11). -/
abbrev BigVal.canonical (v : BigVal) : Prop :=
  Machine.CanonicalMag v.mag ∧ (v.mag = [false] → v.sign = false)

/-- `val(v)`, the integer a value denotes (10_state.md R12). -/
def BigVal.val (v : BigVal) : Int :=
  if v.sign then -(Machine.uval v.mag : Int) else (Machine.uval v.mag : Int)

end Sys2Proof
end

