-- ==== Sys2Proof/Machine/Units.lean ====
section
/-! DEFINITION. The datapath units (spec/40_datapath_units.md R60 to R74): pure functions on bit vectors and
values. A bit vector is most significant bit first. -/

namespace Sys2Proof.Machine

/-- NORM: strip leading zero bits until a 1 leads or one bit remains (R60). The spec never applies it to the
empty vector; the empty vector gives `[0]` here (DESIGN CHOICE, safe: log entry 7). -/
def normMag : Bits → Bits
  | [] => [false]
  | [b] => [b]
  | true :: b :: x => true :: b :: x
  | false :: b :: x => normMag (b :: x)

/-- CANON: normalize, and zero is never negative (R61; 90_conflicts.md C3). -/
def canon (s : Bit) (x : Bits) : BigVal :=
  if normMag x = [false] then ⟨false, [false]⟩ else ⟨s, normMag x⟩

/-- The loop of MAGX: `M <- [m mod 2] ++ M; m <- m div 2` while `m > 0` (R62). The first argument bounds the
number of passes; `m` itself is always enough (DEDUCED, safe: log entry 14). -/
def divideByTwo : Nat → Nat → Bits → Bits
  | 0, _, acc => acc
  | fuel + 1, m, acc => if m = 0 then acc else divideByTwo fuel (m / 2) (decide (m % 2 = 1) :: acc)

/-- The magnitude of a natural number: the collected bits, `[0]` if there are none (R62). -/
def magOfNat (m : Nat) : Bits :=
  if divideByTwo m m [] = [] then [false] else divideByTwo m m []

/-- MAGX: sign and magnitude of an integer (R62). It is also the one canonical representation of every
integer (10_state.md R12). -/
def magx (a : Int) : BigVal := ⟨decide (a < 0), magOfNat a.natAbs⟩

/-- The scan of MCMP over vectors of equal length, ascending index, the first difference decides (R63). -/
def scanBits : Bits → Bits → Ordering
  | a :: x, b :: y => if a = b then scanBits x y else if a = false then .lt else .gt
  | _, _ => .eq

/-- MCMP: length first, then the scan (R63; the corrected comparator, 90_conflicts.md C5). -/
def mcmp (a b : Bits) : Ordering :=
  if a.length < b.length then .lt
  else if a.length > b.length then .gt
  else scanBits a b

/-- PADW: zeros on the left to width `w` (R64). -/
def padw (x : Bits) (w : Nat) : Bits := zeros (w - x.length) ++ x

/-- NOTW: complement of every bit, no normalization (R65). -/
def notw (x : Bits) : Bits := x.map fun b => !b

/-- TCW: two's complement over the vector's own width; the `+ 1` wraps (R66). -/
def tcw (x : Bits) : Bits := bv x.length ((uval (notw x) + 1) % 2 ^ x.length)

/-- RCA: bit-by-bit addition from the least significant position with carry, the carry in is 0 (R67). The
carry out of the less significant positions is the carry into this one. -/
def rca : Bits → Bits → Bits × Bit
  | a :: x, b :: y =>
    let low := rca x y
    let sum := bitNat a + bitNat b + bitNat low.2
    (decide (sum % 2 = 1) :: low.1, decide (sum / 2 = 1))
  | _, _ => ([], false)

/-- SRES: the sign of a sum, resolved before any bit is added; on equal magnitudes of opposite sign it is 0
(R68, D7). -/
def sres (a b : BigVal) : Bit :=
  if a.sign = b.sign then a.sign
  else match mcmp a.mag b.mag with
    | .gt => a.sign
    | .lt => b.sign
    | .eq => false

/-- An operand of the adder over the padded width: padded, and to two's complement if negative (R69 steps
2 and 3). -/
def addOperand (v : BigVal) (w : Nat) : Bits :=
  if v.sign then tcw (padw v.mag w) else padw v.mag w

/-- The padded width: the longer length and two guard bits (R69 step 2). -/
def addWidth (a b : BigVal) : Nat := max a.mag.length b.mag.length + 2

/-- Steps 2 to 5 of ADDSM: the `w`-bit magnitude before normalization; the carry out is discarded (R69, R71). -/
def addMagnitude (a b : BigVal) : Bits :=
  let s := (rca (addOperand a (addWidth a b)) (addOperand b (addWidth a b))).1
  if sres a b then tcw s else s

/-- ADDSM: the arbitrary-precision sign-magnitude adder (R69). -/
def addsm (a b : BigVal) : BigVal := canon (sres a b) (addMagnitude a b)

/-- The per-bit operations of the bitwise-logic unit (R72). -/
inductive LogicOp where
  | and | or | xor
  deriving DecidableEq, Repr

/-- The truth table of R72. -/
def logicBit : LogicOp → Bit → Bit → Bit
  | .and, x, y => x && y
  | .or, x, y => x || y
  | .xor, x, y => x ^^ y

/-- LOGICW: the per-bit operation across the longer length, not normalized (R72). -/
def logicw (op : LogicOp) (a b : Bits) : Bits :=
  List.zipWith (logicBit op) (padw a (max a.length b.length)) (padw b (max a.length b.length))

/-- APPENDZ (R73). -/
def appendz (x : Bits) (n : Nat) : Bits := x ++ zeros n

/-- DROPLSB, for `n <= len(X)` (R74). -/
def droplsb (x : Bits) (n : Nat) : Bits := x.take (x.length - n)

end Sys2Proof.Machine
end

