-- ==== Sys2Proof/Machine/AddSub.lean ====
section
/-! DEFINITION. ADD and SUB (spec/42_add_sub.md). -/

namespace Sys2Proof.Machine

/-- SUB's rule: negate the subtrahend, zero staying non-negative, and add (42_add_sub.md R96). -/
def subsm (a b : BigVal) : BigVal := addsm a (canon (!b.sign) b.mag)

/-- ADD `rd, rs1, rs2` (42_add_sub.md R95). -/
def execAdd (rd rs1 rs2 : Reg) (s : State) : Host.Outcome State Fault Refusal :=
  s.runR3 rd rs1 rs2 addsm

/-- SUB `rd, rs1, rs2` (42_add_sub.md R96). -/
def execSub (rd rs1 rs2 : Reg) (s : State) : Host.Outcome State Fault Refusal :=
  s.runR3 rd rs1 rs2 subsm

end Sys2Proof.Machine
end

