-- ==== Sys2Proof/Machine/Bitwise.lean ====
section
/-! DEFINITION. AND, OR and XOR (spec/47_bitwise.md): on the stored magnitudes, with the receiver's sign. -/

namespace Sys2Proof.Machine

/-- The common rule: the sign of the right operand has no effect, the receiver's sign is kept, and a zero result
is `+[0]` (47_bitwise.md R133; D13; 90_conflicts.md C3). -/
def bitwise (op : LogicOp) (a b : BigVal) : BigVal := canon a.sign (logicw op a.mag b.mag)

/-- AND `rd, rs1, rs2` (47_bitwise.md R130). -/
def execAnd (rd rs1 rs2 : Reg) (s : State) : Host.Outcome State Fault Refusal :=
  s.runR3 rd rs1 rs2 (bitwise .and)

/-- OR `rd, rs1, rs2` (47_bitwise.md R131). -/
def execOr (rd rs1 rs2 : Reg) (s : State) : Host.Outcome State Fault Refusal :=
  s.runR3 rd rs1 rs2 (bitwise .or)

/-- XOR `rd, rs1, rs2` (47_bitwise.md R132). -/
def execXor (rd rs1 rs2 : Reg) (s : State) : Host.Outcome State Fault Refusal :=
  s.runR3 rd rs1 rs2 (bitwise .xor)

end Sys2Proof.Machine
end

