-- ==== Sys2Proof/Machine/Flags.lean ====
section
/-! DEFINITION. The values the compare flag `T` takes (spec/46_compare.md R120 to R127). There is no other
flag (10_state.md R15). -/

namespace Sys2Proof.Machine

/-- EQV: same sign, same length, same bits (R120). -/
def eqv (a b : BigVal) : Bit := decide (a.sign = b.sign) && decide (a.mag = b.mag)

/-- LTV: the negative operand is smaller; with equal signs the magnitudes decide, inverted when both are
negative (R121). -/
def ltv (a b : BigVal) : Bit :=
  if a.sign ≠ b.sign then a.sign
  else if a.sign = false then decide (mcmp a.mag b.mag = .lt)
  else decide (mcmp a.mag b.mag = .gt)

/-- `a == b` (R122). -/
def flagEq (a b : BigVal) : Bit := eqv a b

/-- `a != b` is `!(a == b)` (R123). -/
def flagNe (a b : BigVal) : Bit := !eqv a b

/-- `a < b` (R124). -/
def flagLt (a b : BigVal) : Bit := ltv a b

/-- `a > b` is `b < a` (R125). -/
def flagGt (a b : BigVal) : Bit := ltv b a

/-- `a <= b` is `a < b` or `a == b` (R126). -/
def flagLe (a b : BigVal) : Bit := ltv a b || eqv a b

/-- `a >= b` is `!(a < b)` (R127). -/
def flagGe (a b : BigVal) : Bit := !ltv a b

end Sys2Proof.Machine
end

