-- ==== Sys2Proof/Machine/Compare.lean ====
section
/-! DEFINITION. CEQ, CNE, CLT, CGT, CLE and CGE (spec/46_compare.md): two sources, the result in `T`. -/

namespace Sys2Proof.Machine

/-- CEQ `rs1, rs2` (46_compare.md R122). -/
def execCeq (rs1 rs2 : Reg) (s : State) : Host.Outcome State Fault Refusal :=
  s.runC2 rs1 rs2 flagEq

/-- CNE `rs1, rs2` (46_compare.md R123). -/
def execCne (rs1 rs2 : Reg) (s : State) : Host.Outcome State Fault Refusal :=
  s.runC2 rs1 rs2 flagNe

/-- CLT `rs1, rs2` (46_compare.md R124). -/
def execClt (rs1 rs2 : Reg) (s : State) : Host.Outcome State Fault Refusal :=
  s.runC2 rs1 rs2 flagLt

/-- CGT `rs1, rs2` (46_compare.md R125). -/
def execCgt (rs1 rs2 : Reg) (s : State) : Host.Outcome State Fault Refusal :=
  s.runC2 rs1 rs2 flagGt

/-- CLE `rs1, rs2` (46_compare.md R126). -/
def execCle (rs1 rs2 : Reg) (s : State) : Host.Outcome State Fault Refusal :=
  s.runC2 rs1 rs2 flagLe

/-- CGE `rs1, rs2` (46_compare.md R127). -/
def execCge (rs1 rs2 : Reg) (s : State) : Host.Outcome State Fault Refusal :=
  s.runC2 rs1 rs2 flagGe

end Sys2Proof.Machine
end

