-- ==== Sys2Proof/Machine/Construct.lean ====
section
/-! DEFINITION. ZERO and FROMINT (spec/41_construct.md). -/

namespace Sys2Proof.Machine

/-- The most negative native integer, `-2^(NATW-1)` (41_construct.md R91). -/
def minNative (natw : Nat) : Int := -(2 ^ (natw - 1) : Int)

/-- FROMINT's rule: RANGE on the minimum, otherwise MAGX (41_construct.md R91; D8). -/
def fromNative (natw : Nat) (a : Int) : Except Cause BigVal :=
  if a = minNative natw then .error .range else .ok (magx a)

/-- ZERO `rd` (41_construct.md R90). -/
def execZero (rd : Reg) (s : State) : Host.Outcome State Fault Refusal :=
  s.runR1 rd fun _ => BigVal.zero

/-- FROMINT `rd, #sint(imm)` (41_construct.md R91). -/
def execFromint (rd : Reg) (imm : Nat) (s : State) : Host.Outcome State Fault Refusal :=
  s.runRI rd imm (fromNative s.cfg.natw)

end Sys2Proof.Machine
end

