-- ==== Sys2Proof/Machine/IncDec.lean ====
section
/-! DEFINITION. INC and DEC (spec/44_inc_dec.md). -/

namespace Sys2Proof.Machine

/-- INC `rd`: add the constant `+[1]` (44_inc_dec.md R105). -/
def execInc (rd : Reg) (s : State) : Host.Outcome State Fault Refusal :=
  s.runR1 rd fun a => addsm a BigVal.one

/-- DEC `rd`: add the negated constant, `-[1]` (44_inc_dec.md R106). -/
def execDec (rd : Reg) (s : State) : Host.Outcome State Fault Refusal :=
  s.runR1 rd fun a => addsm a ⟨true, [true]⟩

end Sys2Proof.Machine
end

