-- ==== Sys2Proof/Machine/Multiply.lean ====
section
/-! DEFINITION. MUL (spec/43_multiply.md). -/

namespace Sys2Proof.Machine

/-- The loop of MULSM over the bits of the receiver, LEAST SIGNIFICANT FIRST: on a 1 the shifted magnitude is
added to the total, after every bit a zero is appended to it (43_multiply.md R100). -/
def mulLoop : Bits → BigVal → Bits → BigVal
  | [], total, _ => total
  | b :: rest, total, shifted =>
    mulLoop rest (if b then addsm total ⟨false, shifted⟩ else total) (appendz shifted 1)

/-- MULSM: shift and add, the total starting at `+[0]`; the sign is negative iff the signs differ, and a zero
product is `+[0]` (43_multiply.md R100; D25). -/
def mulsm (a b : BigVal) : BigVal :=
  canon (a.sign ^^ b.sign) (mulLoop a.mag.reverse BigVal.zero b.mag).mag

/-- MUL `rd, rs1, rs2` (43_multiply.md R101). -/
def execMul (rd rs1 rs2 : Reg) (s : State) : Host.Outcome State Fault Refusal :=
  s.runR3 rd rs1 rs2 mulsm

end Sys2Proof.Machine
end

