-- ==== Sys2Proof/Machine/Render.lean ====
section
/-! DEFINITION. REND10 and REND2 (spec/49_render.md): the text goes to the response, nothing is written. -/

namespace Sys2Proof.Machine

/-- The character `-` (49_render.md R145). -/
def chMinus : BitVec 8 := 0x2D#8

/-- `digit(k)` for `k` in 0 to 9 (49_render.md R142, R145). -/
def digit (k : Nat) : BitVec 8 := BitVec.ofNat 8 (0x30 + k)

/-- `DEC(v)` with a bound on the number of digits; `v` itself is always enough (49_render.md R142; DEDUCED, safe: log
entry 14). -/
def decDigits : Nat → Nat → Text
  | 0, v => [digit (v % 10)]
  | fuel + 1, v => if v < 10 then [digit v] else decDigits fuel (v / 10) ++ [digit (v % 10)]

/-- `DEC(v)`: the decimal numeral (49_render.md R142). -/
def decNumeral (v : Nat) : Text := decDigits v v

/-- `bitchar(b)` (49_render.md R143, R145). -/
def bitchar (b : Bit) : BitVec 8 := if b then 0x31#8 else 0x30#8

/-- The magnitude does not fit the accumulator: `ACCW` is a number and `len(M) > ACCW` (49_render.md R141). -/
def overAccumulator (accw : Option Nat) (m : Bits) : Bool :=
  match accw with
  | none => false
  | some w => decide (w < m.length)

/-- REND10's rule: `-` iff the sign is negative, then the numeral of the accumulator, which is `uval(M)`
(49_render.md R141; D5). -/
def render10 (accw : Option Nat) (v : BigVal) : Except Cause Text :=
  if overAccumulator accw v.mag then .error .rendOvf
  else .ok ((if v.sign then [chMinus] else []) ++ decNumeral (uval v.mag))

/-- REND2's text: `-` iff negative and not zero, then `(bits)_2` (49_render.md R143). -/
def render2 (v : BigVal) : Text :=
  (if v.sign && decide (v.mag ≠ [false]) then [chMinus] else []) ++
    (0x28#8 :: v.mag.map bitchar) ++ [0x29#8, 0x5F#8, 0x32#8]

/-- REND10 `rs1` (49_render.md R141). -/
def execRend10 (rs1 : Reg) (s : State) : Host.Outcome State Fault Refusal :=
  s.runS1 rs1 (render10 s.cfg.accw)

/-- REND2 `rs1` (49_render.md R143). -/
def execRend2 (rs1 : Reg) (s : State) : Host.Outcome State Fault Refusal :=
  s.runS1 rs1 fun v => .ok (render2 v)

end Sys2Proof.Machine
end

