-- ==== Sys2Proof/Machine/Shift.lean ====
section
/-! DEFINITION. SHL and SHR (spec/48_shift.md); the count is `uint(imm)` (R135). -/

namespace Sys2Proof.Machine

/-- SHL's rule: append zeros, the sign unchanged, zero stays `+[0]` (48_shift.md R136). -/
def shlv (v : BigVal) (n : Nat) : BigVal := canon v.sign (appendz v.mag n)

/-- SHR's rule: more than the length faults, the length itself gives `+[0]`, fewer drop the low bits and keep the
sign (48_shift.md R137; D9; 90_conflicts.md C4). -/
def shrv (v : BigVal) (n : Nat) : Except Cause BigVal :=
  if n > v.mag.length then .error .shiftRange
  else if n = v.mag.length then .ok BigVal.zero
  else .ok (canon v.sign (droplsb v.mag n))

/-- SHL `rd, rs1, #uint(imm)` (48_shift.md R136). -/
def execShl (rd rs1 : Reg) (imm : Nat) (s : State) : Host.Outcome State Fault Refusal :=
  s.runR2I rd rs1 imm fun v n => .ok (shlv v n)

/-- SHR `rd, rs1, #uint(imm)` (48_shift.md R137). -/
def execShr (rd rs1 : Reg) (imm : Nat) (s : State) : Host.Outcome State Fault Refusal :=
  s.runR2I rd rs1 imm shrv

end Sys2Proof.Machine
end

