-- ==== Sys2Proof/Machine/Unary.lean ====
section
/-! DEFINITION. NEG, MOV, ABS and NOT (spec/45_unary.md). -/

namespace Sys2Proof.Machine

/-- NEG's rule: the sign flipped, the sign of zero never (45_unary.md R110; D6). -/
def negv (v : BigVal) : BigVal := canon (!v.sign) v.mag

/-- ABS's rule: the sign forced non-negative (45_unary.md R112). -/
def absv (v : BigVal) : BigVal := ⟨false, v.mag⟩

/-- NOT's rule: every bit of the magnitude and the sign flipped, then normalized (45_unary.md R113;
90_conflicts.md C2, C3). -/
def notv (v : BigVal) : BigVal := canon (!v.sign) (notw v.mag)

/-- NEG `rd, rs1` (45_unary.md R110). -/
def execNeg (rd rs1 : Reg) (s : State) : Host.Outcome State Fault Refusal :=
  s.runR2 rd rs1 negv

/-- MOV `rd, rs1` (45_unary.md R111). -/
def execMov (rd rs1 : Reg) (s : State) : Host.Outcome State Fault Refusal :=
  s.runR2 rd rs1 fun v => v

/-- ABS `rd, rs1` (45_unary.md R112). -/
def execAbs (rd rs1 : Reg) (s : State) : Host.Outcome State Fault Refusal :=
  s.runR2 rd rs1 absv

/-- NOT `rd, rs1` (45_unary.md R113). -/
def execNot (rd rs1 : Reg) (s : State) : Host.Outcome State Fault Refusal :=
  s.runR2 rd rs1 notv

end Sys2Proof.Machine
end

