-- ==== Sys2Proof/Machine/Dispatch.lean ====
section
/-! DEFINITION. One arm per command (spec/10_state.md R24: the line marked execute). -/

namespace Sys2Proof.Machine

def exec (i : Instr) (s : State) : Host.Outcome State Fault Refusal :=
  match i with
  | .zero rd => Sys2Proof.Machine.execZero rd s
  | .fromint rd imm => Sys2Proof.Machine.execFromint rd imm s
  | .add rd rs1 rs2 => Sys2Proof.Machine.execAdd rd rs1 rs2 s
  | .sub rd rs1 rs2 => Sys2Proof.Machine.execSub rd rs1 rs2 s
  | .mul rd rs1 rs2 => Sys2Proof.Machine.execMul rd rs1 rs2 s
  | .inc rd => Sys2Proof.Machine.execInc rd s
  | .dec rd => Sys2Proof.Machine.execDec rd s
  | .neg rd rs1 => Sys2Proof.Machine.execNeg rd rs1 s
  | .mov rd rs1 => Sys2Proof.Machine.execMov rd rs1 s
  | .abs rd rs1 => Sys2Proof.Machine.execAbs rd rs1 s
  | .not rd rs1 => Sys2Proof.Machine.execNot rd rs1 s
  | .ceq rs1 rs2 => Sys2Proof.Machine.execCeq rs1 rs2 s
  | .cne rs1 rs2 => Sys2Proof.Machine.execCne rs1 rs2 s
  | .clt rs1 rs2 => Sys2Proof.Machine.execClt rs1 rs2 s
  | .cgt rs1 rs2 => Sys2Proof.Machine.execCgt rs1 rs2 s
  | .cle rs1 rs2 => Sys2Proof.Machine.execCle rs1 rs2 s
  | .cge rs1 rs2 => Sys2Proof.Machine.execCge rs1 rs2 s
  | .and rd rs1 rs2 => Sys2Proof.Machine.execAnd rd rs1 rs2 s
  | .or rd rs1 rs2 => Sys2Proof.Machine.execOr rd rs1 rs2 s
  | .xor rd rs1 rs2 => Sys2Proof.Machine.execXor rd rs1 rs2 s
  | .shl rd rs1 imm => Sys2Proof.Machine.execShl rd rs1 imm s
  | .shr rd rs1 imm => Sys2Proof.Machine.execShr rd rs1 imm s
  | .rend10 rs1 => Sys2Proof.Machine.execRend10 rs1 s
  | .rend2 rs1 => Sys2Proof.Machine.execRend2 rs1 s

end Sys2Proof.Machine
end

