-- ==== Sys2Proof/Machine/Step.lean ====
section
/-! DEFINITION. One step: the host presents its next move and the block takes it (spec/10_state.md R22, R24). -/

namespace Sys2Proof.Machine

/-- One step. A command word is decoded and its command executed; a word that decodes to no command raises ILLEGAL
(10_state.md R24); `rst` resets (70_reset_and_hazards.md R170); at the end of the list the run has ended
(60_exceptions.md R160). -/
def step (s : State) : Host.Outcome State Fault Refusal :=
  match s.presented with
  | none => .fault .runEnded
  | some .reset => .next s.takeReset
  | some (.command w imm) =>
    match decode s.cfg w imm with
    | .error e => .next (s.illegalWord e)
    | .ok i => exec i s

/-- The host presents the table word `w` with 0 on the `imm` port as the next command (DESIGN CHOICE, safe:
log entries 2 and 11). -/
def State.withFetchWord (s : State) (nbits w : Nat) : State := s.present (.command (tableWord nbits w) 0)

end Sys2Proof.Machine
end

