-- ==== Sys2Proof/Machine/Assembly.lean ====
section
/-! DEFINITION. The assembler's side of the encoding (spec/30_encoding.md R49, R50): a command as text, and the
pseudo-instructions with their expansions. None of it is state, and no pseudo-instruction has a word of its
own. -/

namespace Sys2Proof.Machine

/-- `V0` to `V15` (R49). -/
def regText (r : Reg) : String := "V" ++ toString r.toNat

/-- `#` and a decimal integer: signed for FROMINT, non-negative for the shifts (R49). -/
def immText (n : Int) : String := "#" ++ toString n

/-- A command in the notation of R49: mnemonic, destination, sources, immediate. -/
def assemblyText (c : Config) (i : Instr) : String :=
  match i with
  | .zero rd | .inc rd | .dec rd => i.mnemonic ++ " " ++ regText rd
  | .fromint rd n => i.mnemonic ++ " " ++ regText rd ++ ", " ++ immText (sint c.natw n)
  | .add rd a b | .sub rd a b | .mul rd a b | .and rd a b | .or rd a b | .xor rd a b =>
    i.mnemonic ++ " " ++ regText rd ++ ", " ++ regText a ++ ", " ++ regText b
  | .neg rd a | .mov rd a | .abs rd a | .not rd a => i.mnemonic ++ " " ++ regText rd ++ ", " ++ regText a
  | .ceq a b | .cne a b | .clt a b | .cgt a b | .cle a b | .cge a b =>
    i.mnemonic ++ " " ++ regText a ++ ", " ++ regText b
  | .shl rd a n | .shr rd a n =>
    i.mnemonic ++ " " ++ regText rd ++ ", " ++ regText a ++ ", " ++ immText (uint c.natw n)
  | .rend10 a | .rend2 a => i.mnemonic ++ " " ++ regText a

/-- The 14 pseudo-instructions (R50). -/
inductive Pseudo where
  | adda (a b : Reg) | suba (a b : Reg) | mula (a b : Reg)
  | anda (a b : Reg) | ora (a b : Reg) | xora (a b : Reg)
  | shla (a : Reg) (n : Nat) | shra (a : Reg) (n : Nat)
  | preinc (a : Reg) | predec (a : Reg)
  | postinc (t a : Reg) | postdec (t a : Reg)
  | plus (d a : Reg) | one (d : Reg)
  deriving DecidableEq, Repr

/-- The commands a pseudo-instruction stands for (R50). -/
def expand : Pseudo → List Instr
  | .adda a b => [.add a a b]
  | .suba a b => [.sub a a b]
  | .mula a b => [.mul a a b]
  | .anda a b => [.and a a b]
  | .ora a b => [.or a a b]
  | .xora a b => [.xor a a b]
  | .shla a n => [.shl a a n]
  | .shra a n => [.shr a a n]
  | .preinc a => [.inc a]
  | .predec a => [.dec a]
  | .postinc t a => [.mov t a, .inc a]
  | .postdec t a => [.mov t a, .dec a]
  | .plus d a => [.mov d a]
  | .one d => [.fromint d 1]

/-- What the host presents for a list of commands: their words with their `imm` values (R40, R49). -/
def hostList (is : List Instr) : List HostMove := is.map fun i => .command (encode i) i.imm

end Sys2Proof.Machine
end

