-- ==== Sys2Proof/Safety.lean ====
section
/-! DEFINITION. The terms the claims use: the invariant of the state, the record the responses keep of the fault
register, a run gone wrong, and reading a rendered text back as the host's harness does. -/

namespace Sys2Proof.Machine

/-- A legal state: the configuration is in the ranges of 00_scope.md R5, there are `NREG` registers, each holds
a canonical value (10_state.md R11, R13) that fits `MAXBITS` (R13), and `FSR` bit 0 is 0 (R16). -/
abbrev State.Inv (s : State) : Prop :=
  s.cfg.wf ∧ s.regs.length = s.cfg.nreg ∧
  (∀ v ∈ s.regs, v.canonical ∧ tooLong s.cfg v = false) ∧ s.fsr.getLsbD 0 = false

/-- The form every response has (10_state.md R19): `cause = 0` iff `ok`, never 6 or 7, and no text with a
fault. -/
abbrev Response.wf (r : Response) : Prop :=
  (r.ok = true ↔ r.cause = 0) ∧ r.cause.toNat ≤ 5 ∧ (r.ok = false → r.txt = [])

/-- The five causes. -/
def Cause.all : List Cause := [.illegal, .range, .shiftRange, .rendOvf, .capacity]

/-- The fault register records exactly the causes the responses since reset reported (10_state.md R16;
60_exceptions.md R150, R155, R160), each response has its form, and the last one shows `T` (10_state.md R19). -/
abbrev State.Record (s : State) : Prop :=
  (∀ c ∈ Cause.all, (s.fsr.getLsbD c.code = true ↔ ∃ r ∈ s.responses, r.cause = BitVec.ofNat 3 c.code)) ∧
  (∀ r ∈ s.responses, r.wf) ∧ (∀ r ∈ s.responses.getLast?, r.t = s.t)

/-- The run has gone wrong (60_exceptions.md R160). -/
abbrev State.goneWrong (s : State) : Prop := s.fsr ≠ 0

/-- The number a sequence of digit characters names, as the harness parses it (49_render.md R144). -/
def readDecimal (x : Text) : Nat := x.foldl (fun acc ch => 10 * acc + (ch.toNat - 0x30)) 0

/-- The integer a decimal text names: an optional `-`, then digits. -/
def readSigned : Text → Int
  | [] => 0
  | ch :: x => if ch = chMinus then -(readDecimal x : Int) else (readDecimal (ch :: x) : Int)

/-- The state a step or a command leads to, if it leads to one. -/
def nextOf : Host.Outcome State Fault Refusal → Option State
  | .next s => some s
  | .fault _ => none
  | .refused _ => none

end Sys2Proof.Machine
end

