-- ==== Sys2Proof/Certificates/Slice0/Obligations.lean ====
section
/-! DEFINITION. The statements about BigInt CORE, each with the sentences of spec/ it formalises. They hold for
every legal configuration, because the configuration is a field of the state that no step changes. Where the
spec itself marks a sentence [derived], the statement says so and is listed with basis 'derived'. -/

open Sys2Proof Sys2Proof.Machine

/-! ## Encoding -/

/-- 30_encoding.md section 3 and D26 ("each legal command has exactly one encoding"): the word the encoder
writes, with the command's value on the `imm` port, decodes to the command, with every operand at every
value. -/
def Obligations.DecodeOfEncode : Prop :=
  ∀ (c : Config) (i : Instr), i.wf c = true → decode c (encode i) i.imm = .ok i

/-- The other direction: a word that decodes is the encoder's word of what it decodes to, and that command is
well formed (30_encoding.md section 3, D26). -/
def Obligations.EncodeOfDecode : Prop :=
  ∀ (c : Config) (w : Cmd) (imm : Nat) (i : Instr), decode c w imm = .ok i → encode i = w ∧ i.wf c = true

/-- The example words of 30_encoding.md section 5 (R49's table) decode to the commands printed beside them, under
the default configuration. -/
def Obligations.SpecExampleWordsDecode : Prop :=
  decode Config.standard 0x10312000#32 7 = .ok (.add 3 1 2) ∧
  decode Config.standard 0x28210000#32 7 = .ok (.neg 2 1) ∧
  decode Config.standard 0x20400000#32 7 = .ok (.inc 4) ∧
  decode Config.standard 0x02100000#32 0xFFFFFFFD = .ok (.fromint 1 0xFFFFFFFD) ∧
  decode Config.standard 0x48210000#32 4 = .ok (.shl 2 1 4) ∧
  decode Config.standard 0x32012000#32 7 = .ok (.clt 1 2) ∧
  decode Config.standard 0x51050000#32 7 = .ok (.rend2 5)

/-- R45, the decoding procedure, over the rows of opcode_table.json: (1) a word whose opcode byte is no row's is
illegal; otherwise, for the row with that opcode byte, (2) a word outside the row's mask is illegal, and (3, 4)
a word inside it is the row's command, if every register it uses exists, and illegal if not; and no two rows
match one word. -/
def Obligations.DecodingProcedure : Prop :=
  (∀ (c : Config) (w : Cmd) (imm : Nat),
    ((∀ row ∈ tableRows, w &&& 0xFF000000#32 ≠ row.2.1) → decode c w imm = .error .unassignedOpcode) ∧
    (∀ row ∈ tableRows, w &&& 0xFF000000#32 = row.2.1 →
      (w &&& row.2.2 ≠ row.2.1 → decode c w imm = .error .unusedFieldNotZero) ∧
      (w &&& row.2.2 = row.2.1 → ∃ i : Instr, i.mnemonic = row.1 ∧ encode i = w ∧
        decode c w imm = if i.regsExist c.nreg then .ok i else .error .noSuchRegister))) ∧
  (∀ (w : Cmd), ∀ r ∈ tableRows, ∀ r' ∈ tableRows,
    w &&& r.2.2 = r.2.1 → w &&& r'.2.2 = r'.2.1 → r = r')

/-- R47 with R151: a word is illegal iff its opcode is not one of the 24, or `cmd[11:0]` is not zero, or a
register field its format does not use is not zero, or one it uses holds an index `>= NREG`; presented to the
block, it writes no value register and not `T`, sets `FSR[1]`, and the response is an error with cause 1. -/
def Obligations.IllegalWords : Prop :=
  (∀ (c : Config) (w : Cmd) (imm : Nat),
    (∃ e, decode c w imm = .error e) ↔
      ((∀ r ∈ opcodeTable, r.opcode ≠ opcodeOf w) ∨ w.extractLsb' 0 12 ≠ 0 ∨
        ∃ r ∈ opcodeTable, r.opcode = opcodeOf w ∧
          ((r.format.usesRd = false ∧ rdOf w ≠ 0) ∨ (r.format.usesRs1 = false ∧ rs1Of w ≠ 0) ∨
           (r.format.usesRs2 = false ∧ rs2Of w ≠ 0) ∨
           (r.format.usesRd = true ∧ c.nreg ≤ (rdOf w).toNat) ∨
           (r.format.usesRs1 = true ∧ c.nreg ≤ (rs1Of w).toNat) ∨
           (r.format.usesRs2 = true ∧ c.nreg ≤ (rs2Of w).toNat)))) ∧
  (∀ (s : State) (w : Cmd) (imm : Nat) (e : DecodeError),
    s.presented = some (.command w imm) → decode s.cfg w imm = .error e →
    ∃ s', step s = .next s' ∧ s'.regs = s.regs ∧ s'.t = s.t ∧ s'.fsr = s.fsr ||| 0b000010#6 ∧
      s'.responses = s.responses ++ [⟨false, 1, s.t, []⟩] ∧ s'.cfg = s.cfg ∧ s'.program = s.program)

/-- 30_encoding.md section 2 (R43: "Every other command ignores `imm`"): unless the opcode is FROMINT, SHL or SHR,
what a word decodes to does not depend on the port; for every word only the port's `NATW` bits count (the model's
reading of a number wider than the port, log entry 10). -/
def Obligations.ImmediatePort : Prop :=
  ∀ (c : Config) (w : Cmd) (imm imm' : Nat),
    (opcodeOf w ∉ [0x02#8, 0x48#8, 0x49#8] → decode c w imm = decode c w imm') ∧
    (imm % 2 ^ c.natw = imm' % 2 ^ c.natw → decode c w imm = decode c w imm')

/-- 10_state.md section 10 (R24, R17): a presented word that decodes to `i` makes the step `exec i` (the index
advances inside it, `State.respond`). A presented reset makes the step `State.takeReset`: that the block is then in
the reset state is 70_reset_and_hazards.md section 1 (R170), and that the index advances and the host's list goes on
is the model's choice, log entry 6. With nothing presented the model stops: the run has ended (60_exceptions.md
section 5, R160), and that the model stops there is its choice, log entry 4. -/
def Obligations.StepRunsTheDecodedCommand : Prop :=
  (∀ (s : State) (w : Cmd) (imm : Nat) (i : Instr),
    s.presented = some (.command w imm) → decode s.cfg w imm = .ok i → step s = exec i s) ∧
  (∀ (s : State), s.presented = some .reset → step s = .next s.takeReset) ∧
  (∀ (s : State), s.presented = none → step s = .fault .runEnded)

/-! ## Reset -/

/-- R21: after reset every value register holds `+[0]`, `T` is 0, `FSR` is 0 and no response is pending, under
every configuration and whatever the host's list. -/
def Obligations.ResetState : Prop :=
  ∀ (c : Config) (program : List HostMove),
    (State.resetWith c program).regs.length = c.nreg ∧
    (∀ r : Reg, r.toNat < c.nreg → (State.resetWith c program).readReg r = ⟨false, [false]⟩) ∧
    (State.resetWith c program).t = false ∧ (State.resetWith c program).fsr = 0#6 ∧
    (State.resetWith c program).respPort = none

/-- 70_reset_and_hazards.md sections 1 and 2 (R170, R171): asserting `rst` between commands puts the block, from
any state, in the reset state; the host's list and the configuration stay, and the list goes on with its next
entry (the model's choice, log entry 6). -/
def Obligations.ResetMove : Prop :=
  ∀ (s : State), s.presented = some .reset →
    ∃ s', step s = .next s' ∧ s'.regs.length = s.cfg.nreg ∧
      (∀ r : Reg, r.toNat < s.cfg.nreg → s'.readReg r = ⟨false, [false]⟩) ∧ s'.t = false ∧ s'.fsr = 0#6 ∧ s'.respPort = none ∧ s'.cfg = s.cfg ∧ s'.program = s.program ∧
      s'.pc = s.pc + 1

/-- The state after reset meets the invariant and the record, under every legal configuration (10_state.md
sections 1 and 9). -/
def Obligations.ResetMeetsTheInvariants : Prop :=
  ∀ (c : Config) (program : List HostMove), c.wf →
    (State.resetWith c program).Inv ∧ (State.resetWith c program).Record

/-! ## Invariants every step keeps -/

/-- 10_state.md section 1 ("Every value held in a value register is canonical at all times, and every value a
command writes is canonical") and R13, R16: from every legal state, every step (a command, an illegal word or a
reset) leads to a legal state: `NREG` registers, each canonical and within `MAXBITS`, `FSR` bit 0 zero. -/
def Obligations.StepKeepsInv : Prop :=
  ∀ (s s' : State), s.Inv → step s = .next s' → s'.Inv

/-- 10_state.md sections 4 and 7, 60_exceptions.md section 2: every step keeps the record: bit `c` of `FSR` is set iff
some response since reset reported cause `c`, every response has the form of R19, the last shows `T`. -/
def Obligations.StepKeepsRecord : Prop :=
  ∀ (s s' : State), s.Record → step s = .next s' → s'.Record

/-- 60_exceptions.md section 5 (R160: "The run has *gone wrong* iff `FSR != 0` at the end, equivalently iff some
response had `ok = 0`"), for every state with the two invariants. -/
def Obligations.GoneWrongIffSomeFault : Prop :=
  ∀ (s : State), s.Inv → s.Record → (s.goneWrong ↔ ∃ r ∈ s.responses, r.ok = false)

/-- 10_state.md section 10 (R23: the configuration "is constant for the life of the block"; R17, 20_memory.md R35: no
command can write the host's list): no step changes the configuration or the list, and every step advances the
index by exactly 1 (for a reset entry that is the model's choice, log entry 6). -/
def Obligations.StepKeepsConfigurationAndProgram : Prop :=
  ∀ (s s' : State), step s = .next s' → s'.cfg = s.cfg ∧ s'.program = s.program ∧ s'.pc = s.pc + 1

/-- R19: every command word presented, legal or not, is answered by exactly one response; its `cause` is 0 when
`ok = 1` and a code 1 to 5 otherwise, its `t` is `T` after the command, and its `txt` is the rendered text of a
REND10 or REND2 that succeeded and empty for every other command and for every fault. -/
def Obligations.OneResponsePerCommand : Prop :=
  ∀ (s : State) (w : Cmd) (imm : Nat), s.presented = some (.command w imm) →
    ∃ s' r, step s = .next s' ∧ s'.responses = s.responses ++ [r] ∧ s'.respPort = some r ∧ r.t = s'.t ∧
      (r.ok = true → r.cause = 0) ∧ (r.ok = false → 1 ≤ r.cause.toNat ∧ r.cause.toNat ≤ 5 ∧ r.txt = []) ∧
      (opcodeOf w ∉ [0x50#8, 0x51#8] → r.txt = []) ∧
      (∀ a, decode s.cfg w imm = .ok (.rend10 a) → r.ok = true →
        render10 s.cfg.accw (s.readReg a) = .ok r.txt) ∧
      (∀ a, decode s.cfg w imm = .ok (.rend2 a) → r.ok = true → r.txt = render2 (s.readReg a))

/-- R155: when a command raises a fault with code `c`, no value register and not `T` is written, `FSR[c]` is set
and the other bits keep their values, the response is `(0, c, T, empty)`, the index advances by 1, and nothing
else changes. Said of every step whose response has `ok = 0`. -/
def Obligations.FaultEffect : Prop :=
  ∀ (s s' : State) (w : Cmd) (imm : Nat) (r : Response),
    s.presented = some (.command w imm) → step s = .next s' → s'.respPort = some r → r.ok = false →
    ∃ c : Nat, 1 ≤ c ∧ c ≤ 5 ∧ r = ⟨false, BitVec.ofNat 3 c, s.t, []⟩ ∧
      s'.regs = s.regs ∧ s'.t = s.t ∧ s'.fsr.getLsbD c = true ∧
      (∀ b, b ≠ c → s'.fsr.getLsbD b = s.fsr.getLsbD b) ∧
      s'.responses = s.responses ++ [r] ∧ s'.pc = s.pc + 1 ∧ s'.cfg = s.cfg ∧ s'.program = s.program

/-- 10_state.md section 4 (R16: "Bits are sticky: once set, a bit stays set until reset; no command clears it") and
60_exceptions.md section 5 (R159): a command keeps every set bit, leaves `FSR` alone when it completes; a reset
move clears all. -/
def Obligations.FsrIsSticky : Prop :=
  ∀ (s s' : State), step s = .next s' →
    (∀ w imm, s.presented = some (.command w imm) →
      (∀ b, s.fsr.getLsbD b = true → s'.fsr.getLsbD b = true) ∧
      (∀ r, s'.respPort = some r → r.ok = true → s'.fsr = s.fsr)) ∧
    (s.presented = some .reset → s'.fsr = 0#6)

/-- 10_state.md section 3 (R15: `T` is written by the six compare commands "and by nothing else"): a command word whose
opcode is none of the six leaves `T` as it was. -/
def Obligations.OnlyComparesWriteT : Prop :=
  ∀ (s s' : State) (w : Cmd) (imm : Nat),
    s.presented = some (.command w imm) → step s = .next s' →
    opcodeOf w ∉ [0x30#8, 0x31#8, 0x32#8, 0x33#8, 0x34#8, 0x35#8] → s'.t = s.t

/-- 10_state.md section 2 (R14: "No command reads `T` or `FSR`"): two runs of a command from states that differ only
in `T` and `FSR` write the same registers and answer with the same `ok`, `cause` and `txt`, and a compare
leaves the same `T`. -/
def Obligations.NoCommandReadsTOrFsr : Prop :=
  ∀ (i : Instr) (s : State) (b : Bit) (f : BitVec 6),
    ∃ s' u' r q, exec i s = .next s' ∧ exec i { s with t := b, fsr := f } = .next u' ∧ u'.regs = s'.regs ∧
      s'.respPort = some r ∧ u'.respPort = some q ∧ q.ok = r.ok ∧ q.cause = r.cause ∧ q.txt = r.txt ∧
      (i.isCompare = true → r.ok = true → u'.t = s'.t)

/-- R161: on every register content and for registers that exist, ZERO, ADD, SUB, MUL, INC, DEC, NEG, MOV, ABS, NOT,
AND, OR, XOR, SHL, the six compares and REND2 complete (the response has `ok = 1` and `FSR` stays), apart from
CAPACITY under a finite `MAXBITS` on a command that writes a register; FROMINT, SHR and REND10 do so but for
their own condition, RANGE, SHIFT_RANGE and REND_OVF. -/
def Obligations.NothingElseFaults : Prop :=
  ∀ (i : Instr) (s : State), s.hasRegs i.regs = true →
    (∀ rd n, i = .fromint rd n → sint s.cfg.natw n ≠ -(2 ^ (s.cfg.natw - 1) : Int)) →
    (∀ rd a n, i = .shr rd a n → uint s.cfg.natw n ≤ (s.readReg a).mag.length) →
    (∀ a, i = .rend10 a → ∀ k ∈ s.cfg.accw, (s.readReg a).mag.length ≤ k) →
    ∃ s' r, exec i s = .next s' ∧ s'.respPort = some r ∧ (r.ok = true → s'.fsr = s.fsr) ∧
      (s.cfg.maxbits = none ∨ i.dest = none → r.ok = true) ∧ (r.ok = false → r.cause = 5)

/-! ## Frames -/

/-- 10_state.md sections 2 and 10 (R14, R24: "at most one register or flag is written per command"), for ZERO, FROMINT,
ADD, SUB, MUL, INC, DEC, NEG, MOV, ABS, NOT, AND, OR, XOR, SHL and SHR: every register but `rd` is unchanged,
and their number; `T`, the configuration and the host's list are unchanged; `FSR` is unchanged but for the bit
of the cause the one new response reports; the index advances by 1. There is no memory. -/
def Obligations.ValueCommandFrame : Prop :=
  ∀ (i : Instr) (rd : Reg) (s s' : State), i.dest = some rd → exec i s = .next s' →
    (∀ r, r ≠ rd → s'.readReg r = s.readReg r) ∧ s'.regs.length = s.regs.length ∧ s'.t = s.t ∧
    s'.cfg = s.cfg ∧ s'.program = s.program ∧ s'.pc = s.pc + 1 ∧
    ∃ r, s'.responses = s.responses ++ [r] ∧
      ∀ b, (b = 0 ∨ b ≠ r.cause.toNat) → s'.fsr.getLsbD b = s.fsr.getLsbD b

/-- The frame of CEQ, CNE, CLT, CGT, CLE and CGE (10_state.md sections 2 and 10): no register changes, nor their
number, the configuration or the host's list; when both registers exist `FSR` does not change; the index
advances by 1 and one response is added. Only `T` may change. -/
def Obligations.CompareFrame : Prop :=
  ∀ (i : Instr) (s s' : State), i.isCompare = true → exec i s = .next s' →
    s'.regs = s.regs ∧ s'.cfg = s.cfg ∧ s'.program = s.program ∧ s'.pc = s.pc + 1 ∧
    (s.hasRegs i.regs = true → s'.fsr = s.fsr) ∧ ∃ r, s'.responses = s.responses ++ [r]

/-- The frame of REND10 and REND2 (10_state.md sections 2 and 10): no register and not `T` changes, nor the
configuration or the host's list; `FSR` is unchanged but for the bit of the cause the one new response
reports; the index advances by 1. -/
def Obligations.RenderFrame : Prop :=
  ∀ (a : Reg) (i : Instr) (s s' : State), (i = .rend10 a ∨ i = .rend2 a) → exec i s = .next s' →
    s'.regs = s.regs ∧ s'.t = s.t ∧ s'.cfg = s.cfg ∧ s'.program = s.program ∧ s'.pc = s.pc + 1 ∧
    ∃ r, s'.responses = s.responses ++ [r] ∧
      ∀ b, (b = 0 ∨ b ≠ r.cause.toNat) → s'.fsr.getLsbD b = s.fsr.getLsbD b

/-- 30_encoding.md section 4 (R47) on every command: one that names a register that does not exist raises ILLEGAL. A
step meets such a word in the decoder already; the statement is about `exec` itself (log entry 8). -/
def Obligations.AbsentRegisterIsIllegal : Prop :=
  ∀ (i : Instr) (s : State), s.hasRegs i.regs = false → exec i s = .next (s.raise .illegal)

/-! ## Values and datapath units -/

/-- 10_state.md section 1 (R12's sentence [derived]): every canonical value is the one representation of the integer it
denotes, every integer has a canonical representation, and a canonical magnitude of a number above 1 has
`floor(log2) + 1` bits, one bit for 0 and 1. -/
def Obligations.CanonicalRepresentation : Prop :=
  (∀ v : BigVal, v.canonical → magx v.val = v) ∧
  (∀ z : Int, (magx z).canonical ∧ (magx z).val = z) ∧
  (∀ v : BigVal, v.canonical →
    v.mag.length = if uval v.mag ≤ 1 then 1 else Nat.log 2 (uval v.mag) + 1)

/-- 40_datapath_units.md section 1 (NORM's properties, [derived] in R60), for every non-empty vector. -/
def Obligations.NormalizerLaws : Prop :=
  ∀ x : Bits, x ≠ [] →
    uval (normMag x) = uval x ∧ 1 ≤ (normMag x).length ∧
    (normMag x = [false] ↔ ∀ b ∈ x, b = false) ∧ (normMag x ≠ [false] → (normMag x).head? = some true) ∧
    normMag (normMag x) = normMag x ∧ (CanonicalMag x → normMag x = x)

/-- 40_datapath_units.md section 1 (R61): CANON gives a canonical value that denotes the same integer, keeps the sign of
every non-zero magnitude and gives zero the sign 0 (the denotation is [derived]). -/
def Obligations.CanonLaws : Prop :=
  ∀ (s : Bit) (x : Bits), x ≠ [] →
    (canon s x).canonical ∧ (canon s x).val = BigVal.val ⟨s, x⟩ ∧ (canon s x).mag = normMag x ∧
    (canon s x).sign = (s && decide (uval x ≠ 0))

/-- 40_datapath_units.md section 2 (MAGX's properties, [derived] in R62): the result denotes `a`, is canonical, and for
a native `a` other than the minimum has at most `NATW - 1` bits. -/
def Obligations.ExtractorLaws : Prop :=
  ∀ (natw : Nat) (a : Int), 2 ≤ natw → -(2 ^ (natw - 1) : Int) < a → a ≤ (2 ^ (natw - 1) : Int) - 1 →
    (magx a).val = a ∧ (magx a).canonical ∧ (magx a).mag.length ≤ natw - 1

/-- 40_datapath_units.md section 3 (MCMP's law, [derived] in R63): on canonical magnitudes the comparator orders the
numbers, and answers `EQ` exactly on equal vectors. -/
def Obligations.ComparatorLaw : Prop :=
  ∀ a b : Bits, CanonicalMag a → CanonicalMag b →
    (mcmp a b = .lt ↔ uval a < uval b) ∧ (mcmp a b = .gt ↔ uval a > uval b) ∧
    (mcmp a b = .eq ↔ a = b) ∧ (a = b ↔ uval a = uval b)

/-- 40_datapath_units.md section 4 (laws of PADW, NOTW and TCW, [derived] in R64 to R66). -/
def Obligations.PaddingAndComplementLaws : Prop :=
  (∀ (x : Bits) (w : Nat), x.length ≤ w → (padw x w).length = w ∧ uval (padw x w) = uval x) ∧
  (∀ x : Bits, (notw x).length = x.length ∧ uval (notw x) = 2 ^ x.length - 1 - uval x ∧ notw (notw x) = x) ∧
  (∀ x : Bits, (tcw x).length = x.length ∧ uval (tcw x) = (2 ^ x.length - uval x) % 2 ^ x.length ∧
    tcw (tcw x) = x) ∧
  (∀ w, tcw (zeros w) = zeros w)

/-- 40_datapath_units.md section 5 (RCA's law, [derived] in R67): sum and carry out. -/
def Obligations.RippleCarryLaw : Prop :=
  ∀ x y : Bits, x.length = y.length →
    (rca x y).1.length = x.length ∧
    uval (rca x y).1 + 2 ^ x.length * bitNat (rca x y).2 = uval x + uval y

/-- 40_datapath_units.md section 6 (SRES's law, [derived] in R68): the sign resolved in advance is the sign of the sum. -/
def Obligations.SignResolutionLaw : Prop :=
  ∀ a b : BigVal, a.canonical → b.canonical → (sres a b = true ↔ a.val + b.val < 0)

/-- 40_datapath_units.md section 7 (R70, [derived]): for canonical operands ADDSM gives the canonical representation of
the sum; with equal signs it does so for any non-empty magnitudes, leading zeros included. -/
def Obligations.AdderIsExact : Prop :=
  (∀ a b : BigVal, a.canonical → b.canonical → addsm a b = magx (a.val + b.val)) ∧
  (∀ a b : BigVal, a.sign = b.sign → a.mag ≠ [] → b.mag ≠ [] → addsm a b = magx (a.val + b.val))

/-- 40_datapath_units.md section 7 (R71, [derived]): the top bit of the magnitude the adder normalizes is always 0, so
the two readings of "an implicit extra guard bit which is discarded" give one result. -/
def Obligations.TopGuardBitIsZero : Prop :=
  ∀ a b : BigVal, a.canonical → b.canonical →
    (addMagnitude a b).length = max a.mag.length b.mag.length + 2 ∧
    (addMagnitude a b).head? = some false ∧
    canon (sres a b) (addMagnitude a b).tail = addsm a b

/-- 40_datapath_units.md section 8 (LOGICW's law, [derived] in R72): the result has the longer length and is the bitwise
operation of the two numbers. -/
def Obligations.LogicUnitLaw : Prop :=
  ∀ a b : Bits,
    (∀ op, (logicw op a b).length = max a.length b.length) ∧
    uval (logicw .and a b) = uval a &&& uval b ∧ uval (logicw .or a b) = uval a ||| uval b ∧
    uval (logicw .xor a b) = uval a ^^^ uval b

/-- 40_datapath_units.md section 9 (laws of APPENDZ and DROPLSB, [derived] in R73, R74). -/
def Obligations.ShiftPrimitiveLaws : Prop :=
  ∀ (x : Bits) (n : Nat),
    uval (appendz x n) = uval x * 2 ^ n ∧ (appendz x n).length = x.length + n ∧
    (n ≤ x.length → uval (droplsb x n) = uval x / 2 ^ n ∧ (droplsb x n).length = x.length - n)

/-- 43_multiply.md (R102, [derived]): for canonical operands MULSM gives the canonical representation of the product;
hence it is commutative and distributes over the adder, as equalities of representations. -/
def Obligations.MultiplierIsExact : Prop :=
  (∀ a b : BigVal, a.canonical → b.canonical → mulsm a b = magx (a.val * b.val)) ∧
  (∀ a b c : BigVal, a.canonical → b.canonical → c.canonical →
    mulsm a b = mulsm b a ∧ mulsm a BigVal.one = a ∧ mulsm a BigVal.zero = BigVal.zero ∧
    mulsm (negv a) b = negv (mulsm a b) ∧ mulsm a (addsm b c) = addsm (mulsm a b) (mulsm a c))

/-- 42_add_sub.md (R97, [derived]): commutativity, associativity, identity and inverse of the values ADD and SUB
produce, as equalities of canonical representations. -/
def Obligations.AdditionLaws : Prop :=
  ∀ a b c : BigVal, a.canonical → b.canonical → c.canonical →
    addsm a b = addsm b a ∧ addsm (addsm a b) c = addsm a (addsm b c) ∧ addsm a BigVal.zero = a ∧
    subsm a a = BigVal.zero ∧ (subsm a b).val = a.val - b.val

/-! ## Commands -/

/-- R90 ZERO: the word, and `V[rd] <- +[0]`; CAPACITY cannot occur. -/
def Obligations.ZeroCommand : Prop :=
  ∀ (s : State) (rd : Reg), s.cfg.wf → s.hasRegs [rd] = true →
    (∀ imm, decode s.cfg (0x01000000#32 ||| (rd.setWidth 32 <<< 20)) imm = .ok (.zero rd)) ∧
    exec (.zero rd) s = .next ((s.writeReg rd ⟨false, [false]⟩).complete [])

/-- 41_construct.md FROMINT (R91; that the value is the native integer is [derived]): the word; RANGE iff the native
integer is `-2^(NATW-1)`; otherwise `V[rd] <- MAGX(sint(imm))`, whose value is the native integer, or CAPACITY iff `MAXBITS` is a number and the magnitude is longer. -/
def Obligations.FromintCommand : Prop :=
  ∀ (s : State) (rd : Reg) (imm : Nat), s.cfg.wf → s.hasRegs [rd] = true →
    (imm < 2 ^ s.cfg.natw →
      decode s.cfg (0x02000000#32 ||| (rd.setWidth 32 <<< 20)) imm = .ok (.fromint rd imm) ∧
      sint s.cfg.natw imm = if imm < 2 ^ (s.cfg.natw - 1) then (imm : Int) else imm - 2 ^ s.cfg.natw) ∧
    (sint s.cfg.natw imm = -(2 ^ (s.cfg.natw - 1) : Int) → exec (.fromint rd imm) s = .next (s.raise .range)) ∧
    (sint s.cfg.natw imm ≠ -(2 ^ (s.cfg.natw - 1) : Int) →
      (tooLong s.cfg (magx (sint s.cfg.natw imm)) = true → exec (.fromint rd imm) s = .next (s.raise .capacity)) ∧
      (tooLong s.cfg (magx (sint s.cfg.natw imm)) = false →
        exec (.fromint rd imm) s = .next ((s.writeReg rd (magx (sint s.cfg.natw imm))).complete []) ∧
        (magx (sint s.cfg.natw imm)).val = sint s.cfg.natw imm))

/-- R95 ADD: the word; `V[rd]` becomes the canonical representation of `val(V[rs1]) + val(V[rs2])`, exactly, the old
values counting whichever registers coincide; CAPACITY iff `MAXBITS` is a number and the result is longer. -/
def Obligations.AddCommand : Prop :=
  ∀ (s : State) (rd rs1 rs2 : Reg), s.Inv → s.hasRegs [rd, rs1, rs2] = true →
    (∀ imm, decode s.cfg (0x10000000#32 ||| (rd.setWidth 32 <<< 20) ||| (rs1.setWidth 32 <<< 16) |||
      (rs2.setWidth 32 <<< 12)) imm = .ok (.add rd rs1 rs2)) ∧
    (tooLong s.cfg (magx ((s.readReg rs1).val + (s.readReg rs2).val)) = false →
      exec (.add rd rs1 rs2) s =
        .next ((s.writeReg rd (magx ((s.readReg rs1).val + (s.readReg rs2).val))).complete [])) ∧
    (tooLong s.cfg (magx ((s.readReg rs1).val + (s.readReg rs2).val)) = true →
      exec (.add rd rs1 rs2) s = .next (s.raise .capacity))

/-- 42_add_sub.md SUB (R96; its result sentence is [derived]): the word, the exact difference, CAPACITY. -/
def Obligations.SubCommand : Prop :=
  ∀ (s : State) (rd rs1 rs2 : Reg), s.Inv → s.hasRegs [rd, rs1, rs2] = true →
    (∀ imm, decode s.cfg (0x11000000#32 ||| (rd.setWidth 32 <<< 20) ||| (rs1.setWidth 32 <<< 16) |||
      (rs2.setWidth 32 <<< 12)) imm = .ok (.sub rd rs1 rs2)) ∧
    (tooLong s.cfg (magx ((s.readReg rs1).val - (s.readReg rs2).val)) = false →
      exec (.sub rd rs1 rs2) s =
        .next ((s.writeReg rd (magx ((s.readReg rs1).val - (s.readReg rs2).val))).complete [])) ∧
    (tooLong s.cfg (magx ((s.readReg rs1).val - (s.readReg rs2).val)) = true →
      exec (.sub rd rs1 rs2) s = .next (s.raise .capacity))

/-- R101 MUL: the word, the exact product of the old values, CAPACITY on the final product only. -/
def Obligations.MulCommand : Prop :=
  ∀ (s : State) (rd rs1 rs2 : Reg), s.Inv → s.hasRegs [rd, rs1, rs2] = true →
    (∀ imm, decode s.cfg (0x18000000#32 ||| (rd.setWidth 32 <<< 20) ||| (rs1.setWidth 32 <<< 16) |||
      (rs2.setWidth 32 <<< 12)) imm = .ok (.mul rd rs1 rs2)) ∧
    (tooLong s.cfg (magx ((s.readReg rs1).val * (s.readReg rs2).val)) = false →
      exec (.mul rd rs1 rs2) s =
        .next ((s.writeReg rd (magx ((s.readReg rs1).val * (s.readReg rs2).val))).complete [])) ∧
    (tooLong s.cfg (magx ((s.readReg rs1).val * (s.readReg rs2).val)) = true →
      exec (.mul rd rs1 rs2) s = .next (s.raise .capacity))

/-- 44_inc_dec.md (INC R105, DEC R106; the result sentences are [derived]): the words; `V[rd]` goes up or down by
exactly 1, or CAPACITY if the result is longer than `MAXBITS`. -/
def Obligations.IncDecCommands : Prop :=
  ∀ (s : State) (rd : Reg), s.Inv → s.hasRegs [rd] = true →
    (∀ imm, decode s.cfg (0x20000000#32 ||| (rd.setWidth 32 <<< 20)) imm = .ok (.inc rd) ∧
      decode s.cfg (0x21000000#32 ||| (rd.setWidth 32 <<< 20)) imm = .ok (.dec rd)) ∧
    (tooLong s.cfg (magx ((s.readReg rd).val + 1)) = false →
      exec (.inc rd) s = .next ((s.writeReg rd (magx ((s.readReg rd).val + 1))).complete [])) ∧
    (tooLong s.cfg (magx ((s.readReg rd).val + 1)) = true → exec (.inc rd) s = .next (s.raise .capacity)) ∧
    (tooLong s.cfg (magx ((s.readReg rd).val - 1)) = false →
      exec (.dec rd) s = .next ((s.writeReg rd (magx ((s.readReg rd).val - 1))).complete [])) ∧
    (tooLong s.cfg (magx ((s.readReg rd).val - 1)) = true → exec (.dec rd) s = .next (s.raise .capacity))

/-- 45_unary.md (NEG R110, MOV R111, ABS R112; the value sentences of NEG and ABS are [derived]): the words; the
negated value, the copy, the absolute value. CAPACITY cannot occur. -/
def Obligations.NegMovAbsCommands : Prop :=
  ∀ (s : State) (rd rs1 : Reg), s.Inv → s.hasRegs [rd, rs1] = true →
    (∀ imm, decode s.cfg (0x28000000#32 ||| (rd.setWidth 32 <<< 20) ||| (rs1.setWidth 32 <<< 16)) imm =
        .ok (.neg rd rs1) ∧
      decode s.cfg (0x29000000#32 ||| (rd.setWidth 32 <<< 20) ||| (rs1.setWidth 32 <<< 16)) imm =
        .ok (.mov rd rs1) ∧
      decode s.cfg (0x2A000000#32 ||| (rd.setWidth 32 <<< 20) ||| (rs1.setWidth 32 <<< 16)) imm =
        .ok (.abs rd rs1)) ∧
    exec (.neg rd rs1) s = .next ((s.writeReg rd (magx (-(s.readReg rs1).val))).complete []) ∧
    exec (.mov rd rs1) s = .next ((s.writeReg rd (s.readReg rs1)).complete []) ∧
    exec (.abs rd rs1) s = .next ((s.writeReg rd (magx |(s.readReg rs1).val|)).complete [])

/-- 45_unary.md NOT (R113; the value sentence is [derived]): the word; with `L` the source's length, a source of value
`x >= 0` gives `-(2^L - 1 - x)` and one of value `x < 0` gives `2^L - 1 - |x|`, canonically; CAPACITY cannot
occur. -/
def Obligations.NotCommand : Prop :=
  ∀ (s : State) (rd rs1 : Reg), s.Inv → s.hasRegs [rd, rs1] = true →
    (∀ imm, decode s.cfg (0x2B000000#32 ||| (rd.setWidth 32 <<< 20) ||| (rs1.setWidth 32 <<< 16)) imm =
      .ok (.not rd rs1)) ∧
    exec (.not rd rs1) s = .next ((s.writeReg rd (magx
      (if 0 ≤ (s.readReg rs1).val then
        -(2 ^ (s.readReg rs1).mag.length - 1 - (s.readReg rs1).val)
      else 2 ^ (s.readReg rs1).mag.length - 1 - |(s.readReg rs1).val|))).complete [])

/-- 45_unary.md (R114, [derived]): a double NOT gives the value back exactly for `+[0]` and `-[1]`; the raw flip always
does (C2). -/
def Obligations.NotIsNoInvolution : Prop :=
  (∀ v : BigVal, v.canonical → (notv (notv v) = v ↔ v = ⟨false, [false]⟩ ∨ v = ⟨true, [true]⟩)) ∧
  (∀ x : Bits, notw (notw x) = x)

/-- 46_compare.md (R122 to R127 with the truth table of R128, [derived]): the words; on registers that hold canonical
values each compare completes and leaves in `T` whether the relation holds between the two integers. -/
def Obligations.CompareCommands : Prop :=
  ∀ (s : State) (rs1 rs2 : Reg), s.Inv → s.hasRegs [rs1, rs2] = true →
    (∀ imm, [0x30#8, 0x31#8, 0x32#8, 0x33#8, 0x34#8, 0x35#8].map
        (fun (op : BitVec 8) => decode s.cfg ((op.setWidth 32 <<< 24) ||| (rs1.setWidth 32 <<< 16) |||
          (rs2.setWidth 32 <<< 12)) imm) =
      [.ok (.ceq rs1 rs2), .ok (.cne rs1 rs2), .ok (.clt rs1 rs2), .ok (.cgt rs1 rs2), .ok (.cle rs1 rs2),
        .ok (.cge rs1 rs2)]) ∧
    exec (.ceq rs1 rs2) s =
      .next ((s.writeT (decide ((s.readReg rs1).val = (s.readReg rs2).val))).complete []) ∧
    exec (.cne rs1 rs2) s =
      .next ((s.writeT (decide ((s.readReg rs1).val ≠ (s.readReg rs2).val))).complete []) ∧
    exec (.clt rs1 rs2) s =
      .next ((s.writeT (decide ((s.readReg rs1).val < (s.readReg rs2).val))).complete []) ∧
    exec (.cgt rs1 rs2) s =
      .next ((s.writeT (decide ((s.readReg rs1).val > (s.readReg rs2).val))).complete []) ∧
    exec (.cle rs1 rs2) s =
      .next ((s.writeT (decide ((s.readReg rs1).val ≤ (s.readReg rs2).val))).complete []) ∧
    exec (.cge rs1 rs2) s =
      .next ((s.writeT (decide ((s.readReg rs1).val ≥ (s.readReg rs2).val))).complete [])

/-- 46_compare.md (R128, [derived]): of `a < b`, `a == b`, `b < a` exactly one holds, on canonical values. -/
def Obligations.OrderingIsTotal : Prop :=
  ∀ a b : BigVal, a.canonical → b.canonical →
    (ltv a b = true ∧ eqv a b = false ∧ ltv b a = false) ∨
    (ltv a b = false ∧ eqv a b = true ∧ ltv b a = false) ∨
    (ltv a b = false ∧ eqv a b = false ∧ ltv b a = true)

/-- 47_bitwise.md (AND R130, OR R131, XOR R132, R133; the value law is [derived]): the words; the result has the
receiver's sign and the bitwise operation of the two magnitudes as numbers, `+[0]` when that is 0, whatever the
right operand's sign; CAPACITY cannot occur on registers within the bound. -/
def Obligations.BitwiseCommands : Prop :=
  ∀ (s : State) (rd rs1 rs2 : Reg), s.Inv → s.hasRegs [rd, rs1, rs2] = true →
    (∀ imm, [0x40#8, 0x41#8, 0x42#8].map
        (fun (op : BitVec 8) => decode s.cfg ((op.setWidth 32 <<< 24) ||| (rd.setWidth 32 <<< 20) |||
          (rs1.setWidth 32 <<< 16) ||| (rs2.setWidth 32 <<< 12)) imm) =
      [.ok (.and rd rs1 rs2), .ok (.or rd rs1 rs2), .ok (.xor rd rs1 rs2)]) ∧
    exec (.and rd rs1 rs2) s = .next ((s.writeReg rd (magx ((if (s.readReg rs1).sign then -1 else 1) *
      (((s.readReg rs1).val.natAbs &&& (s.readReg rs2).val.natAbs : Nat) : Int)))).complete []) ∧
    exec (.or rd rs1 rs2) s = .next ((s.writeReg rd (magx ((if (s.readReg rs1).sign then -1 else 1) *
      (((s.readReg rs1).val.natAbs ||| (s.readReg rs2).val.natAbs : Nat) : Int)))).complete []) ∧
    exec (.xor rd rs1 rs2) s = .next ((s.writeReg rd (magx ((if (s.readReg rs1).sign then -1 else 1) *
      (((s.readReg rs1).val.natAbs ^^^ (s.readReg rs2).val.natAbs : Nat) : Int)))).complete [])

/-- 48_shift.md SHL (R136; its result sentence is [derived]): the word; the value times `2^n` for `n = uint(imm)`, or
CAPACITY if that is longer than `MAXBITS`. -/
def Obligations.ShlCommand : Prop :=
  ∀ (s : State) (rd rs1 : Reg) (n : Nat), s.Inv → s.hasRegs [rd, rs1] = true → n < 2 ^ s.cfg.natw →
    decode s.cfg (0x48000000#32 ||| (rd.setWidth 32 <<< 20) ||| (rs1.setWidth 32 <<< 16)) n =
      .ok (.shl rd rs1 n) ∧
    (tooLong s.cfg (magx ((s.readReg rs1).val * 2 ^ n)) = false →
      exec (.shl rd rs1 n) s = .next ((s.writeReg rd (magx ((s.readReg rs1).val * 2 ^ n))).complete [])) ∧
    (tooLong s.cfg (magx ((s.readReg rs1).val * 2 ^ n)) = true →
      exec (.shl rd rs1 n) s = .next (s.raise .capacity))

/-- 48_shift.md SHR (R137; its result sentence is [derived]): the word; SHIFT_RANGE iff `n` exceeds the bit-length of the
source; otherwise the magnitude is divided by `2^n` with truncation and the sign kept, so negative values round
toward zero, and `n` equal to the length gives `+[0]`. -/
def Obligations.ShrCommand : Prop :=
  ∀ (s : State) (rd rs1 : Reg) (n : Nat), s.Inv → s.hasRegs [rd, rs1] = true → n < 2 ^ s.cfg.natw →
    decode s.cfg (0x49000000#32 ||| (rd.setWidth 32 <<< 20) ||| (rs1.setWidth 32 <<< 16)) n =
      .ok (.shr rd rs1 n) ∧
    ((s.readReg rs1).mag.length < n → exec (.shr rd rs1 n) s = .next (s.raise .shiftRange)) ∧
    (n ≤ (s.readReg rs1).mag.length →
      exec (.shr rd rs1 n) s = .next ((s.writeReg rd (magx ((s.readReg rs1).val.tdiv (2 ^ n)))).complete [])) ∧
    (n = (s.readReg rs1).mag.length →
      exec (.shr rd rs1 n) s = .next ((s.writeReg rd ⟨false, [false]⟩).complete []))

/-- 48_shift.md (R138, [derived]): a left shift and a right shift by the same `n` give a non-zero value back, of either
sign, with no fault; for zero the right shift succeeds exactly for `n <= 1`. -/
def Obligations.ShiftInverse : Prop :=
  ∀ (v : BigVal) (n : Nat), v.canonical →
    (v ≠ BigVal.zero → shrv (shlv v n) n = .ok v) ∧
    (v = BigVal.zero → n ≤ 1 → shrv (shlv v n) n = .ok v) ∧
    (v = BigVal.zero → 2 ≤ n → shrv (shlv v n) n = .error .shiftRange)

/-- R141 REND10: the word; REND_OVF iff `ACCW` is a number and the magnitude is longer; otherwise no register changes and
the text is `-` iff the value is negative, then the decimal numeral of the magnitude. -/
def Obligations.Rend10Command : Prop :=
  ∀ (s : State) (rs1 : Reg), s.Inv → s.hasRegs [rs1] = true →
    (∀ imm, decode s.cfg (0x50000000#32 ||| (rs1.setWidth 32 <<< 16)) imm = .ok (.rend10 rs1)) ∧
    ((∃ k ∈ s.cfg.accw, k < (s.readReg rs1).mag.length) → exec (.rend10 rs1) s = .next (s.raise .rendOvf)) ∧
    ((∀ k ∈ s.cfg.accw, (s.readReg rs1).mag.length ≤ k) →
      exec (.rend10 rs1) s = .next (s.complete
        ((if (s.readReg rs1).val < 0 then [0x2D#8] else []) ++ decNumeral (s.readReg rs1).val.natAbs)))

/-- R142, the decimal numeral: `DEC(v) = [digit(v)]` if `v < 10`, else `DEC(v div 10) ++ [digit(v mod 10)]`, the digits
being the ASCII codes 30H to 39H (R145). -/
def Obligations.DecimalNumeral : Prop :=
  ∀ v : Nat, decNumeral v =
    if v < 10 then [BitVec.ofNat 8 (0x30 + v)]
    else decNumeral (v / 10) ++ [BitVec.ofNat 8 (0x30 + v % 10)]

/-- R143 REND2: the word; no register changes and the text is `-` iff negative, `(`, the bits of the magnitude most
significant first, `)_2`, in ASCII codes; it has `len + 4` characters and one more for the sign. -/
def Obligations.Rend2Command : Prop :=
  ∀ (s : State) (rs1 : Reg), s.Inv → s.hasRegs [rs1] = true →
    (∀ imm, decode s.cfg (0x51000000#32 ||| (rs1.setWidth 32 <<< 16)) imm = .ok (.rend2 rs1)) ∧
    ∃ txt, exec (.rend2 rs1) s = .next (s.complete txt) ∧
      txt = (if (s.readReg rs1).val < 0 then [0x2D#8] else []) ++ [0x28#8] ++
        (s.readReg rs1).mag.map (fun b => if b then 0x31#8 else 0x30#8) ++ [0x29#8, 0x5F#8, 0x32#8] ∧
      txt.length = (s.readReg rs1).mag.length + 4 + (if (s.readReg rs1).val < 0 then 1 else 0)

/-- 49_render.md (R144, [derived]): for every native integer but the minimum, FROMINT and then REND10 of the register
answers a text that reads back as that integer, when `ACCW` is `none` or at least `NATW - 1` (and, the spec's
default, `MAXBITS` is `none`). -/
def Obligations.DecimalRoundTrip : Prop :=
  ∀ (s : State) (rd : Reg) (imm : Nat), s.Inv → s.hasRegs [rd] = true → s.cfg.maxbits = none →
    (∀ k ∈ s.cfg.accw, s.cfg.natw - 1 ≤ k) → sint s.cfg.natw imm ≠ -(2 ^ (s.cfg.natw - 1) : Int) →
    ∃ s' s'' r, exec (.fromint rd imm) s = .next s' ∧ exec (.rend10 rd) s' = .next s'' ∧
      s''.respPort = some r ∧ r.ok = true ∧ readSigned r.txt = sint s.cfg.natw imm

/-- 44_inc_dec.md (R107, [derived]; 30_encoding.md R50): `POSTINC Vt, Va`, that is MOV and INC, leaves in `Vt` the value
`Va` had and in `Va` that value plus one, when `t` and `a` differ and the result fits; `POSTDEC` likewise with
minus one. -/
def Obligations.PostfixForms : Prop :=
  ∀ (s : State) (t a : Reg), s.Inv → s.hasRegs [t, a] = true → t ≠ a →
    expand (.postinc t a) = [.mov t a, .inc a] ∧ expand (.postdec t a) = [.mov t a, .dec a] ∧
    (tooLong s.cfg (magx ((s.readReg a).val + 1)) = false →
      ∃ s' s'', exec (.mov t a) s = .next s' ∧ exec (.inc a) s' = .next s'' ∧
        s''.readReg t = s.readReg a ∧ (s''.readReg a).val = (s.readReg a).val + 1) ∧
    (tooLong s.cfg (magx ((s.readReg a).val - 1)) = false →
      ∃ s' s'', exec (.mov t a) s = .next s' ∧ exec (.dec a) s' = .next s'' ∧
        s''.readReg t = s.readReg a ∧ (s''.readReg a).val = (s.readReg a).val - 1)
end

