-- ==== Sys2Proof/Laws/Decode.lean ====
section
/-! SUPPORT. The fields of a command word, the masks of the formats, and the one lookup of the opcode table. -/

namespace Sys2Proof

@[simp] theorem opcodeOf_assemble (op : BitVec 8) (rd a b : Reg) : opcodeOf (assemble op rd a b) = op := by
  apply BitVec.eq_of_getLsbD_eq
  intro i hi
  interval_cases i <;> simp [opcodeOf, assemble]

@[simp] theorem rdOf_assemble (op : BitVec 8) (rd a b : Reg) : rdOf (assemble op rd a b) = rd := by
  apply BitVec.eq_of_getLsbD_eq
  intro i hi
  interval_cases i <;> simp [rdOf, assemble]

@[simp] theorem rs1Of_assemble (op : BitVec 8) (rd a b : Reg) : rs1Of (assemble op rd a b) = a := by
  apply BitVec.eq_of_getLsbD_eq
  intro i hi
  interval_cases i <;> simp [rs1Of, assemble]

@[simp] theorem rs2Of_assemble (op : BitVec 8) (rd a b : Reg) : rs2Of (assemble op rd a b) = b := by
  apply BitVec.eq_of_getLsbD_eq
  intro i hi
  interval_cases i <;> simp [rs2Of, assemble]

@[simp] theorem low_assemble (op : BitVec 8) (rd a b : Reg) : (assemble op rd a b).extractLsb' 0 12 = 0#12 := by
  apply BitVec.eq_of_getLsbD_eq
  intro i hi
  interval_cases i <;> simp [assemble]

/-- A word with `cmd[11:0]` zero is the word of its fields. -/
theorem assemble_fields (w : Cmd) (h : w.extractLsb' 0 12 = 0#12) :
    assemble (opcodeOf w) (rdOf w) (rs1Of w) (rs2Of w) = w := by
  have low : ∀ i (hi : i < 12), w[i] = false := by
    intro i hi
    have := congrArg (fun x => x.getLsbD i) h
    simpa [hi, BitVec.getLsbD_eq_getElem (show i < 32 by omega)] using this
  apply BitVec.eq_of_getLsbD_eq
  intro i hi
  interval_cases i <;> simp [opcodeOf, rdOf, rs1Of, rs2Of, assemble, low]

/-- Two words with the same fields are the same. -/
theorem word_ext {w w' : Cmd} (ho : opcodeOf w = opcodeOf w') (hd : rdOf w = rdOf w') (h1 : rs1Of w = rs1Of w')
    (h2 : rs2Of w = rs2Of w') (hl : w.extractLsb' 0 12 = w'.extractLsb' 0 12) : w = w' := by
  have bits : ∀ (n k i : Nat), i < k → w.extractLsb' n k = w'.extractLsb' n k → w.getLsbD (n + i) = w'.getLsbD (n + i) := by
    intro n k i hi h
    have := congrArg (fun x => x.getLsbD i) h
    simpa [hi] using this
  apply BitVec.eq_of_getLsbD_eq
  intro i hi
  rcases (by omega : i < 12 ∨ (12 ≤ i ∧ i < 16) ∨ (16 ≤ i ∧ i < 20) ∨ (20 ≤ i ∧ i < 24) ∨ (24 ≤ i ∧ i < 32))
    with h | ⟨h, h'⟩ | ⟨h, h'⟩ | ⟨h, h'⟩ | ⟨h, h'⟩
  · simpa using bits 0 12 i h hl
  · simpa [Nat.add_sub_of_le h] using bits 12 4 (i - 12) (by omega) h2
  · simpa [Nat.add_sub_of_le h] using bits 16 4 (i - 16) (by omega) h1
  · simpa [Nat.add_sub_of_le h] using bits 20 4 (i - 20) (by omega) hd
  · simpa [Nat.add_sub_of_le h] using bits 24 8 (i - 24) (by omega) ho

/-- A word meets a format's mask (30_encoding.md R45 step 2) exactly when `cmd[11:0]` and every register field the
format does not use are zero. -/
theorem mask_eq_iff (f : Format) (w : Cmd) :
    w &&& f.mask = (opcodeOf w).setWidth 32 <<< 24 ↔
      ((f.usesRd = false → rdOf w = 0#4) ∧ (f.usesRs1 = false → rs1Of w = 0#4) ∧
        (f.usesRs2 = false → rs2Of w = 0#4) ∧ w.extractLsb' 0 12 = 0#12) := by
  have hm : (opcodeOf w).setWidth 32 <<< 24 = assemble (opcodeOf w) 0#4 0#4 0#4 := by simp [assemble]
  have one4 : ∀ x : BitVec 4, x &&& 15#4 = x := by decide
  have one8 : ∀ x : BitVec 8, x &&& 255#8 = x := by decide
  have one12 : ∀ x : BitVec 12, x &&& 4095#12 = x := fun x => BitVec.and_allOnes
  have key : w &&& f.mask = (opcodeOf w).setWidth 32 <<< 24 ↔
      (rdOf (w &&& f.mask) = 0#4 ∧ rs1Of (w &&& f.mask) = 0#4 ∧ rs2Of (w &&& f.mask) = 0#4 ∧
        (w &&& f.mask).extractLsb' 0 12 = 0#12) := by
    rw [hm]
    constructor
    · intro h
      rw [h]
      simp
    · rintro ⟨h1, h2, h3, h4⟩
      refine word_ext ?_ (by simpa using h1) (by simpa using h2) (by simpa using h3) (by simpa using h4)
      rw [opcodeOf_assemble]
      cases f <;> simp [opcodeOf, Format.mask, BitVec.extractLsb'_and, one8]
  rw [key]
  cases f <;> simp [rdOf, rs1Of, rs2Of, Format.mask, BitVec.extractLsb'_and, Format.usesRd, Format.usesRs1, Format.usesRs2, one4, one12]

/-- Each opcode stands in one row, so the lookup finds the row it is in. -/
theorem find_row {r : Row} (hr : r ∈ opcodeTable) (op : BitVec 8) (ho : r.opcode = op) :
    opcodeTable.find? (fun x => x.opcode == op) = some r := by
  subst ho
  simp only [opcodeTable, rowsArith, rowsUnaryCompare, rowsBitShiftRender, List.cons_append, List.nil_append,
    List.mem_cons, List.not_mem_nil, or_false] at hr
  rcases hr with h | h | h | h | h | h | h | h | h | h | h | h | h | h | h | h | h | h | h | h | h | h | h | h <;>
    subst h <;> rfl

/-- Decoding once the row is known (30_encoding.md R45 steps 2 to 4). -/
theorem decode_of_row {r : Row} (hr : r ∈ opcodeTable) (c : Config) (w : Cmd) (imm : Nat)
    (ho : r.opcode = opcodeOf w) :
    decode c w imm =
      if w &&& r.format.mask = r.matchWord then
        if (r.build (rdOf w) (rs1Of w) (rs2Of w) (sampleImm c imm)).regsExist c.nreg then
          .ok (r.build (rdOf w) (rs1Of w) (rs2Of w) (sampleImm c imm))
        else .error .noSuchRegister
      else .error .unusedFieldNotZero := by
  rw [decode, find_row hr _ ho]

/-- Step 2 in terms of the fields. -/
theorem matchWord_iff (r : Row) (w : Cmd) (ho : r.opcode = opcodeOf w) :
    w &&& r.format.mask = r.matchWord ↔
      ((r.format.usesRd = false → rdOf w = 0#4) ∧ (r.format.usesRs1 = false → rs1Of w = 0#4) ∧
        (r.format.usesRs2 = false → rs2Of w = 0#4) ∧ w.extractLsb' 0 12 = 0#12) := by
  rw [Row.matchWord, ho, mask_eq_iff]

/-- What decoding can answer: the three rejections by name, or the command of the row of the opcode. -/
theorem decode_cases (c : Config) (w : Cmd) (imm : Nat) :
    ((∀ r ∈ opcodeTable, r.opcode ≠ opcodeOf w) ∧ decode c w imm = .error .unassignedOpcode) ∨
    ∃ r ∈ opcodeTable, r.opcode = opcodeOf w ∧
      ((w &&& r.format.mask ≠ r.matchWord ∧ decode c w imm = .error .unusedFieldNotZero) ∨
       (w &&& r.format.mask = r.matchWord ∧
         (r.build (rdOf w) (rs1Of w) (rs2Of w) (sampleImm c imm)).regsExist c.nreg = false ∧
         decode c w imm = .error .noSuchRegister) ∨
       (w &&& r.format.mask = r.matchWord ∧
         (r.build (rdOf w) (rs1Of w) (rs2Of w) (sampleImm c imm)).regsExist c.nreg = true ∧
         decode c w imm = .ok (r.build (rdOf w) (rs1Of w) (rs2Of w) (sampleImm c imm)))) := by
  by_cases h : ∃ r ∈ opcodeTable, r.opcode = opcodeOf w
  · obtain ⟨r, hr, ho⟩ := h
    refine .inr ⟨r, hr, ho, ?_⟩
    rw [decode_of_row hr c w imm ho]
    split
    · rename_i hm
      cases hx : (r.build (rdOf w) (rs1Of w) (rs2Of w) (sampleImm c imm)).regsExist c.nreg <;> simp [hm]
    · rename_i hm
      exact .inl ⟨hm, rfl⟩
  · have h' : ∀ r ∈ opcodeTable, r.opcode ≠ opcodeOf w := fun r hr ho => h ⟨r, hr, ho⟩
    refine .inl ⟨h', ?_⟩
    have : opcodeTable.find? (fun x => x.opcode == opcodeOf w) = none := by
      rw [List.find?_eq_none]
      intro r hr
      simpa using h' r hr
    rw [decode, this]

end Sys2Proof
end

