-- ==== Sys2Proof/Laws/State.lean ====
section
/-! SUPPORT. One lemma per field per update of the state, so that no proof unfolds a record update. -/

namespace Sys2Proof.Machine

/-! ### writeReg -/

@[simp] theorem State.writeReg_cfg (s : State) (r : Reg) (v : BigVal) : (s.writeReg r v).cfg = s.cfg := rfl
@[simp] theorem State.writeReg_regs (s : State) (r : Reg) (v : BigVal) : (s.writeReg r v).regs = s.regs.set r.toNat v := rfl
@[simp] theorem State.writeReg_t (s : State) (r : Reg) (v : BigVal) : (s.writeReg r v).t = s.t := rfl
@[simp] theorem State.writeReg_fsr (s : State) (r : Reg) (v : BigVal) : (s.writeReg r v).fsr = s.fsr := rfl
@[simp] theorem State.writeReg_responses (s : State) (r : Reg) (v : BigVal) : (s.writeReg r v).responses = s.responses := rfl
@[simp] theorem State.writeReg_program (s : State) (r : Reg) (v : BigVal) : (s.writeReg r v).program = s.program := rfl
@[simp] theorem State.writeReg_pc (s : State) (r : Reg) (v : BigVal) : (s.writeReg r v).pc = s.pc := rfl

/-! ### writeT -/

@[simp] theorem State.writeT_cfg (s : State) (b : Bit) : (s.writeT b).cfg = s.cfg := rfl
@[simp] theorem State.writeT_regs (s : State) (b : Bit) : (s.writeT b).regs = s.regs := rfl
@[simp] theorem State.writeT_t (s : State) (b : Bit) : (s.writeT b).t = b := rfl
@[simp] theorem State.writeT_fsr (s : State) (b : Bit) : (s.writeT b).fsr = s.fsr := rfl
@[simp] theorem State.writeT_responses (s : State) (b : Bit) : (s.writeT b).responses = s.responses := rfl
@[simp] theorem State.writeT_program (s : State) (b : Bit) : (s.writeT b).program = s.program := rfl
@[simp] theorem State.writeT_pc (s : State) (b : Bit) : (s.writeT b).pc = s.pc := rfl

/-! ### setFsr -/

@[simp] theorem State.setFsr_cfg (s : State) (c : Cause) : (s.setFsr c).cfg = s.cfg := rfl
@[simp] theorem State.setFsr_regs (s : State) (c : Cause) : (s.setFsr c).regs = s.regs := rfl
@[simp] theorem State.setFsr_t (s : State) (c : Cause) : (s.setFsr c).t = s.t := rfl
@[simp] theorem State.setFsr_fsr (s : State) (c : Cause) : (s.setFsr c).fsr = s.fsr ||| c.fsrBit := rfl
@[simp] theorem State.setFsr_responses (s : State) (c : Cause) : (s.setFsr c).responses = s.responses := rfl
@[simp] theorem State.setFsr_program (s : State) (c : Cause) : (s.setFsr c).program = s.program := rfl
@[simp] theorem State.setFsr_pc (s : State) (c : Cause) : (s.setFsr c).pc = s.pc := rfl

/-! ### respond -/

@[simp] theorem State.respond_cfg (s : State) (r : Response) : (s.respond r).cfg = s.cfg := rfl
@[simp] theorem State.respond_regs (s : State) (r : Response) : (s.respond r).regs = s.regs := rfl
@[simp] theorem State.respond_t (s : State) (r : Response) : (s.respond r).t = s.t := rfl
@[simp] theorem State.respond_fsr (s : State) (r : Response) : (s.respond r).fsr = s.fsr := rfl
@[simp] theorem State.respond_responses (s : State) (r : Response) : (s.respond r).responses = s.responses ++ [r] := rfl
@[simp] theorem State.respond_program (s : State) (r : Response) : (s.respond r).program = s.program := rfl
@[simp] theorem State.respond_pc (s : State) (r : Response) : (s.respond r).pc = s.pc + 1 := rfl

/-! ### takeReset -/

@[simp] theorem State.takeReset_cfg (s : State) : (s.takeReset).cfg = s.cfg := rfl
@[simp] theorem State.takeReset_regs (s : State) : (s.takeReset).regs = List.replicate s.cfg.nreg BigVal.zero := rfl
@[simp] theorem State.takeReset_t (s : State) : (s.takeReset).t = false := rfl
@[simp] theorem State.takeReset_fsr (s : State) : (s.takeReset).fsr = 0 := rfl
@[simp] theorem State.takeReset_responses (s : State) : (s.takeReset).responses = [] := rfl
@[simp] theorem State.takeReset_program (s : State) : (s.takeReset).program = s.program := rfl
@[simp] theorem State.takeReset_pc (s : State) : (s.takeReset).pc = s.pc + 1 := rfl

/-! ### present -/

@[simp] theorem State.present_cfg (s : State) (m : HostMove) : (s.present m).cfg = s.cfg := rfl
@[simp] theorem State.present_regs (s : State) (m : HostMove) : (s.present m).regs = s.regs := rfl
@[simp] theorem State.present_t (s : State) (m : HostMove) : (s.present m).t = s.t := rfl
@[simp] theorem State.present_fsr (s : State) (m : HostMove) : (s.present m).fsr = s.fsr := rfl
@[simp] theorem State.present_responses (s : State) (m : HostMove) : (s.present m).responses = s.responses := rfl
@[simp] theorem State.present_program (s : State) (m : HostMove) : (s.present m).program = placeAt s.program s.pc m := rfl
@[simp] theorem State.present_pc (s : State) (m : HostMove) : (s.present m).pc = s.pc := rfl

/-! ### complete -/

@[simp] theorem State.complete_cfg (s : State) (x : Text) : (s.complete x).cfg = s.cfg := rfl
@[simp] theorem State.complete_regs (s : State) (x : Text) : (s.complete x).regs = s.regs := rfl
@[simp] theorem State.complete_t (s : State) (x : Text) : (s.complete x).t = s.t := rfl
@[simp] theorem State.complete_fsr (s : State) (x : Text) : (s.complete x).fsr = s.fsr := rfl
@[simp] theorem State.complete_responses (s : State) (x : Text) : (s.complete x).responses = s.responses ++ [⟨true, 0, s.t, x⟩] := rfl
@[simp] theorem State.complete_program (s : State) (x : Text) : (s.complete x).program = s.program := rfl
@[simp] theorem State.complete_pc (s : State) (x : Text) : (s.complete x).pc = s.pc + 1 := rfl

/-! ### raise -/

@[simp] theorem State.raise_cfg (s : State) (c : Cause) : (s.raise c).cfg = s.cfg := rfl
@[simp] theorem State.raise_regs (s : State) (c : Cause) : (s.raise c).regs = s.regs := rfl
@[simp] theorem State.raise_t (s : State) (c : Cause) : (s.raise c).t = s.t := rfl
@[simp] theorem State.raise_fsr (s : State) (c : Cause) : (s.raise c).fsr = s.fsr ||| c.fsrBit := rfl
@[simp] theorem State.raise_responses (s : State) (c : Cause) : (s.raise c).responses = s.responses ++ [⟨false, BitVec.ofNat 3 c.code, s.t, []⟩] := rfl
@[simp] theorem State.raise_program (s : State) (c : Cause) : (s.raise c).program = s.program := rfl
@[simp] theorem State.raise_pc (s : State) (c : Cause) : (s.raise c).pc = s.pc + 1 := rfl

/-! ### resetWith -/

@[simp] theorem State.resetWith_cfg (c : Config) (p : List HostMove) : (State.resetWith c p).cfg = c := rfl
@[simp] theorem State.resetWith_regs (c : Config) (p : List HostMove) : (State.resetWith c p).regs = List.replicate c.nreg BigVal.zero := rfl
@[simp] theorem State.resetWith_t (c : Config) (p : List HostMove) : (State.resetWith c p).t = false := rfl
@[simp] theorem State.resetWith_fsr (c : Config) (p : List HostMove) : (State.resetWith c p).fsr = 0 := rfl
@[simp] theorem State.resetWith_responses (c : Config) (p : List HostMove) : (State.resetWith c p).responses = [] := rfl
@[simp] theorem State.resetWith_program (c : Config) (p : List HostMove) : (State.resetWith c p).program = p := rfl
@[simp] theorem State.resetWith_pc (c : Config) (p : List HostMove) : (State.resetWith c p).pc = 0 := rfl

/-! ### reading registers -/

/-- A register reads the same where the register file is the same. -/
theorem State.readReg_of_regs {s s' : State} (h : s'.regs = s.regs) (r : Reg) : s'.readReg r = s.readReg r := by
  simp [State.readReg, h]

/-- Writing one register leaves every other as it was. -/
theorem State.readReg_writeReg_ne (s : State) {r d : Reg} (v : BigVal) (h : r ≠ d) :
    (s.writeReg d v).readReg r = s.readReg r := by
  have : d.toNat ≠ r.toNat := fun e => h (BitVec.eq_of_toNat_eq e.symm)
  simp [State.readReg, List.getD, this]

/-- Writing an existing register and reading it gives what was written. -/
theorem State.readReg_writeReg_self (s : State) (d : Reg) (v : BigVal) (h : d.toNat < s.regs.length) :
    (s.writeReg d v).readReg d = v := by
  simp [State.readReg, List.getD, h]

@[simp] theorem State.respPort_respond (s : State) (r : Response) : (s.respond r).respPort = some r := by
  simp [State.respPort]

@[simp] theorem State.respPort_complete (s : State) (x : Text) :
    (s.complete x).respPort = some ⟨true, 0, s.t, x⟩ := by
  simp [State.complete]

@[simp] theorem State.respPort_raise (s : State) (c : Cause) :
    (s.raise c).respPort = some ⟨false, BitVec.ofNat 3 c.code, s.t, []⟩ := by
  simp [State.raise]

@[simp] theorem State.readReg_complete (s : State) (x : Text) (r : Reg) :
    (s.complete x).readReg r = s.readReg r := rfl

@[simp] theorem State.readReg_raise (s : State) (c : Cause) (r : Reg) :
    (s.raise c).readReg r = s.readReg r := rfl

@[simp] theorem State.readReg_writeT (s : State) (b : Bit) (r : Reg) :
    (s.writeT b).readReg r = s.readReg r := rfl

end Sys2Proof.Machine
end

