-- ==== Sys2Proof/Laws/Ops.lean ====
section
/-! SUPPORT. What each shared operation can do, said once: the end of a command, the frame of every command, and
`exec` as that frame around the one line that differs (spec/10_state.md R24). -/

namespace Sys2Proof.Machine

/-- The end of a command: a fault, or the one write its result names (10_state.md R24). -/
theorem State.finish_cases (s : State) (r : Result) :
    (∃ c, s.finish r = s.raise c ∧ (r = .fault c ∨ ∃ rd v, r = .value rd v ∧ tooLong s.cfg v = true ∧ c = .capacity)) ∨
    (∃ rd v, r = .value rd v ∧ tooLong s.cfg v = false ∧ s.finish r = (s.writeReg rd v).complete []) ∨
    (∃ b, r = .flag b ∧ s.finish r = (s.writeT b).complete []) ∨
    (∃ x, r = .text x ∧ s.finish r = s.complete x) := by
  cases r with
  | value rd v =>
    cases h : tooLong s.cfg v
    · exact .inr (.inl ⟨rd, v, rfl, h, by simp [State.finish, h]⟩)
    · exact .inl ⟨.capacity, by simp [State.finish, h], .inr ⟨rd, v, rfl, h, rfl⟩⟩
  | flag b => exact .inr (.inr (.inl ⟨b, rfl, rfl⟩))
  | text x => exact .inr (.inr (.inr ⟨x, rfl, rfl⟩))
  | fault c => exact .inl ⟨c, rfl, .inl rfl⟩

/-- The frame of a command that names only registers that exist. -/
theorem State.guarded_of_has {s : State} {used : List Reg} (h : s.hasRegs used = true) (r : Result) :
    s.guarded used r = .next (s.finish r) := by simp [State.guarded, h]

/-- The frame of a command that names a register that does not exist. -/
theorem State.guarded_of_not_has {s : State} {used : List Reg} (h : s.hasRegs used = false) (r : Result) :
    s.guarded used r = .next (s.raise .illegal) := by simp [State.guarded, h]

/-- A value within the bound is written and the command completes. -/
theorem State.finish_value {s : State} {v : BigVal} (h : tooLong s.cfg v = false) (rd : Reg) :
    s.finish (.value rd v) = (s.writeReg rd v).complete [] := by simp [State.finish, h]

/-- A value longer than the bound raises CAPACITY. -/
theorem State.finish_tooLong {s : State} {v : BigVal} (h : tooLong s.cfg v = true) (rd : Reg) :
    s.finish (.value rd v) = s.raise .capacity := by simp [State.finish, h]

/-- The result each command hands to the frame: the line marked execute of 10_state.md R24. -/
def resultOf (i : Instr) (s : State) : Result :=
  match i with
  | .zero rd => .value rd BigVal.zero
  | .fromint rd n => valueOrFault rd (fromNative s.cfg.natw (sint s.cfg.natw n))
  | .add rd a b => .value rd (addsm (s.readReg a) (s.readReg b))
  | .sub rd a b => .value rd (subsm (s.readReg a) (s.readReg b))
  | .mul rd a b => .value rd (mulsm (s.readReg a) (s.readReg b))
  | .inc rd => .value rd (addsm (s.readReg rd) BigVal.one)
  | .dec rd => .value rd (addsm (s.readReg rd) ⟨true, [true]⟩)
  | .neg rd a => .value rd (negv (s.readReg a))
  | .mov rd a => .value rd (s.readReg a)
  | .abs rd a => .value rd (absv (s.readReg a))
  | .not rd a => .value rd (notv (s.readReg a))
  | .ceq a b => .flag (flagEq (s.readReg a) (s.readReg b))
  | .cne a b => .flag (flagNe (s.readReg a) (s.readReg b))
  | .clt a b => .flag (flagLt (s.readReg a) (s.readReg b))
  | .cgt a b => .flag (flagGt (s.readReg a) (s.readReg b))
  | .cle a b => .flag (flagLe (s.readReg a) (s.readReg b))
  | .cge a b => .flag (flagGe (s.readReg a) (s.readReg b))
  | .and rd a b => .value rd (bitwise .and (s.readReg a) (s.readReg b))
  | .or rd a b => .value rd (bitwise .or (s.readReg a) (s.readReg b))
  | .xor rd a b => .value rd (bitwise .xor (s.readReg a) (s.readReg b))
  | .shl rd a n => .value rd (shlv (s.readReg a) (uint s.cfg.natw n))
  | .shr rd a n => valueOrFault rd (shrv (s.readReg a) (uint s.cfg.natw n))
  | .rend10 a => textOrFault (render10 s.cfg.accw (s.readReg a))
  | .rend2 a => .text (render2 (s.readReg a))

/-- Every command runs in the one frame, with the registers it names and its own result. -/
theorem exec_eq_guarded (i : Instr) (s : State) : exec i s = s.guarded i.regs (resultOf i s) := by
  cases i <;> rfl

/-- A rule with a fault of its own yields a value or that fault. -/
theorem valueOrFault_cases (rd : Reg) (x : Except Cause BigVal) :
    (∃ v, valueOrFault rd x = .value rd v) ∨ ∃ c, valueOrFault rd x = .fault c := by
  cases x <;> simp [valueOrFault]

/-- A rendering yields a text or its fault. -/
theorem textOrFault_cases (x : Except Cause Text) :
    (∃ t, textOrFault x = .text t) ∨ ∃ c, textOrFault x = .fault c := by
  cases x <;> simp [textOrFault]

/-- The kind of result a command has: a value for its destination or its own fault, a bit for a compare, a text or a
fault for a rendering. -/
theorem resultOf_kind (i : Instr) (s : State) :
    (∃ rd, i.dest = some rd ∧ i.isCompare = false ∧ ((∃ v, resultOf i s = .value rd v) ∨ ∃ c, resultOf i s = .fault c)) ∨
    (i.dest = none ∧ i.isCompare = true ∧ ∃ b, resultOf i s = .flag b) ∨
    (i.dest = none ∧ i.isCompare = false ∧ (∃ a, i = .rend10 a ∨ i = .rend2 a) ∧
      ((∃ x, resultOf i s = .text x) ∨ ∃ c, resultOf i s = .fault c)) := by
  cases i with
  | fromint rd n => exact .inl ⟨rd, rfl, rfl, valueOrFault_cases rd _⟩
  | shr rd a n => exact .inl ⟨rd, rfl, rfl, valueOrFault_cases rd _⟩
  | rend10 a => exact .inr (.inr ⟨rfl, rfl, ⟨a, .inl rfl⟩, textOrFault_cases _⟩)
  | _ => simp [Instr.dest, Instr.isCompare, resultOf]

/-- The CAPACITY condition, `MAXBITS != none` and `len(M) > MAXBITS` (60_exceptions.md R153). -/
theorem tooLong_iff (c : Config) (v : BigVal) : tooLong c v = true ↔ ∃ n ∈ c.maxbits, n < v.mag.length := by
  unfold tooLong; split <;> simp_all

/-- A magnitude no longer than one within the bound is within the bound. -/
theorem tooLong_mono (c : Config) {v u : BigVal} (h : u.mag.length ≤ v.mag.length) (hv : tooLong c v = false) :
    tooLong c u = false := by
  unfold tooLong at *
  split at hv
  · rfl
  · simp at *; omega

/-- The registers of a list exist. -/
theorem State.hasRegs_iff (s : State) (l : List Reg) : s.hasRegs l = true ↔ ∀ r ∈ l, r.toNat < s.cfg.nreg := by
  simp [State.hasRegs]

end Sys2Proof.Machine
end

