-- ==== Sys2Proof/Laws/PerInstr.lean ====
section
/-! SUPPORT. One statement per command, about the command as syntax: its word lies in its own row of the opcode
table (spec/30_encoding.md R41, R42, R44, R46). -/

namespace Sys2Proof.Laws.EncodingRow

/-- The command's mnemonic has a row in spec/opcode_table.json whose `match` is the command's opcode on top of zeros,
and the command's word matches that row: `(cmd AND mask) = match` (30_encoding.md R42). -/
def Statement (i : Instr) : Prop :=
  (i.mnemonic, i.opcode.setWidth 32 <<< 24, i.format.mask) ∈ tableRows ∧
    encode i &&& i.format.mask = i.opcode.setWidth 32 <<< 24

/-- The word of an opcode and its fields matches a row whose format leaves the unused fields zero. -/
theorem masked (f : Format) (op : BitVec 8) (rd a b : Reg) (hd : f.usesRd = false → rd = 0)
    (h1 : f.usesRs1 = false → a = 0) (h2 : f.usesRs2 = false → b = 0) :
    assemble op rd a b &&& f.mask = op.setWidth 32 <<< 24 := by
  have h := (mask_eq_iff f (assemble op rd a b)).2
  rw [opcodeOf_assemble] at h
  exact h ⟨by simpa using hd, by simpa using h1, by simpa using h2, by simp⟩

end Sys2Proof.Laws.EncodingRow

namespace Sys2Proof

theorem Laws.EncodingRow.zero (rd : Reg) : Laws.EncodingRow.Statement (.zero rd) :=
  ⟨(by decide : ("ZERO", (0x01#8).setWidth 32 <<< 24, Format.r1.mask) ∈ tableRows),
    Laws.EncodingRow.masked _ _ _ _ _ (by simp [Instr.format, Format.usesRd])
      (by simp [Instr.format, Format.usesRs1]) (by simp [Instr.format, Format.usesRs2])⟩

theorem Laws.EncodingRow.fromint (rd : Reg) (imm : Nat) : Laws.EncodingRow.Statement (.fromint rd imm) :=
  ⟨(by decide : ("FROMINT", (0x02#8).setWidth 32 <<< 24, Format.ri.mask) ∈ tableRows),
    Laws.EncodingRow.masked _ _ _ _ _ (by simp [Instr.format, Format.usesRd])
      (by simp [Instr.format, Format.usesRs1]) (by simp [Instr.format, Format.usesRs2])⟩

theorem Laws.EncodingRow.add (rd rs1 rs2 : Reg) : Laws.EncodingRow.Statement (.add rd rs1 rs2) :=
  ⟨(by decide : ("ADD", (0x10#8).setWidth 32 <<< 24, Format.r3.mask) ∈ tableRows),
    Laws.EncodingRow.masked _ _ _ _ _ (by simp [Instr.format, Format.usesRd])
      (by simp [Instr.format, Format.usesRs1]) (by simp [Instr.format, Format.usesRs2])⟩

theorem Laws.EncodingRow.sub (rd rs1 rs2 : Reg) : Laws.EncodingRow.Statement (.sub rd rs1 rs2) :=
  ⟨(by decide : ("SUB", (0x11#8).setWidth 32 <<< 24, Format.r3.mask) ∈ tableRows),
    Laws.EncodingRow.masked _ _ _ _ _ (by simp [Instr.format, Format.usesRd])
      (by simp [Instr.format, Format.usesRs1]) (by simp [Instr.format, Format.usesRs2])⟩

theorem Laws.EncodingRow.mul (rd rs1 rs2 : Reg) : Laws.EncodingRow.Statement (.mul rd rs1 rs2) :=
  ⟨(by decide : ("MUL", (0x18#8).setWidth 32 <<< 24, Format.r3.mask) ∈ tableRows),
    Laws.EncodingRow.masked _ _ _ _ _ (by simp [Instr.format, Format.usesRd])
      (by simp [Instr.format, Format.usesRs1]) (by simp [Instr.format, Format.usesRs2])⟩

theorem Laws.EncodingRow.inc (rd : Reg) : Laws.EncodingRow.Statement (.inc rd) :=
  ⟨(by decide : ("INC", (0x20#8).setWidth 32 <<< 24, Format.r1.mask) ∈ tableRows),
    Laws.EncodingRow.masked _ _ _ _ _ (by simp [Instr.format, Format.usesRd])
      (by simp [Instr.format, Format.usesRs1]) (by simp [Instr.format, Format.usesRs2])⟩

theorem Laws.EncodingRow.dec (rd : Reg) : Laws.EncodingRow.Statement (.dec rd) :=
  ⟨(by decide : ("DEC", (0x21#8).setWidth 32 <<< 24, Format.r1.mask) ∈ tableRows),
    Laws.EncodingRow.masked _ _ _ _ _ (by simp [Instr.format, Format.usesRd])
      (by simp [Instr.format, Format.usesRs1]) (by simp [Instr.format, Format.usesRs2])⟩

theorem Laws.EncodingRow.neg (rd rs1 : Reg) : Laws.EncodingRow.Statement (.neg rd rs1) :=
  ⟨(by decide : ("NEG", (0x28#8).setWidth 32 <<< 24, Format.r2.mask) ∈ tableRows),
    Laws.EncodingRow.masked _ _ _ _ _ (by simp [Instr.format, Format.usesRd])
      (by simp [Instr.format, Format.usesRs1]) (by simp [Instr.format, Format.usesRs2])⟩

theorem Laws.EncodingRow.mov (rd rs1 : Reg) : Laws.EncodingRow.Statement (.mov rd rs1) :=
  ⟨(by decide : ("MOV", (0x29#8).setWidth 32 <<< 24, Format.r2.mask) ∈ tableRows),
    Laws.EncodingRow.masked _ _ _ _ _ (by simp [Instr.format, Format.usesRd])
      (by simp [Instr.format, Format.usesRs1]) (by simp [Instr.format, Format.usesRs2])⟩

theorem Laws.EncodingRow.abs (rd rs1 : Reg) : Laws.EncodingRow.Statement (.abs rd rs1) :=
  ⟨(by decide : ("ABS", (0x2A#8).setWidth 32 <<< 24, Format.r2.mask) ∈ tableRows),
    Laws.EncodingRow.masked _ _ _ _ _ (by simp [Instr.format, Format.usesRd])
      (by simp [Instr.format, Format.usesRs1]) (by simp [Instr.format, Format.usesRs2])⟩

theorem Laws.EncodingRow.not (rd rs1 : Reg) : Laws.EncodingRow.Statement (.not rd rs1) :=
  ⟨(by decide : ("NOT", (0x2B#8).setWidth 32 <<< 24, Format.r2.mask) ∈ tableRows),
    Laws.EncodingRow.masked _ _ _ _ _ (by simp [Instr.format, Format.usesRd])
      (by simp [Instr.format, Format.usesRs1]) (by simp [Instr.format, Format.usesRs2])⟩

theorem Laws.EncodingRow.ceq (rs1 rs2 : Reg) : Laws.EncodingRow.Statement (.ceq rs1 rs2) :=
  ⟨(by decide : ("CEQ", (0x30#8).setWidth 32 <<< 24, Format.c2.mask) ∈ tableRows),
    Laws.EncodingRow.masked _ _ _ _ _ (by simp [Instr.format, Format.usesRd])
      (by simp [Instr.format, Format.usesRs1]) (by simp [Instr.format, Format.usesRs2])⟩

theorem Laws.EncodingRow.cne (rs1 rs2 : Reg) : Laws.EncodingRow.Statement (.cne rs1 rs2) :=
  ⟨(by decide : ("CNE", (0x31#8).setWidth 32 <<< 24, Format.c2.mask) ∈ tableRows),
    Laws.EncodingRow.masked _ _ _ _ _ (by simp [Instr.format, Format.usesRd])
      (by simp [Instr.format, Format.usesRs1]) (by simp [Instr.format, Format.usesRs2])⟩

theorem Laws.EncodingRow.clt (rs1 rs2 : Reg) : Laws.EncodingRow.Statement (.clt rs1 rs2) :=
  ⟨(by decide : ("CLT", (0x32#8).setWidth 32 <<< 24, Format.c2.mask) ∈ tableRows),
    Laws.EncodingRow.masked _ _ _ _ _ (by simp [Instr.format, Format.usesRd])
      (by simp [Instr.format, Format.usesRs1]) (by simp [Instr.format, Format.usesRs2])⟩

theorem Laws.EncodingRow.cgt (rs1 rs2 : Reg) : Laws.EncodingRow.Statement (.cgt rs1 rs2) :=
  ⟨(by decide : ("CGT", (0x33#8).setWidth 32 <<< 24, Format.c2.mask) ∈ tableRows),
    Laws.EncodingRow.masked _ _ _ _ _ (by simp [Instr.format, Format.usesRd])
      (by simp [Instr.format, Format.usesRs1]) (by simp [Instr.format, Format.usesRs2])⟩

theorem Laws.EncodingRow.cle (rs1 rs2 : Reg) : Laws.EncodingRow.Statement (.cle rs1 rs2) :=
  ⟨(by decide : ("CLE", (0x34#8).setWidth 32 <<< 24, Format.c2.mask) ∈ tableRows),
    Laws.EncodingRow.masked _ _ _ _ _ (by simp [Instr.format, Format.usesRd])
      (by simp [Instr.format, Format.usesRs1]) (by simp [Instr.format, Format.usesRs2])⟩

theorem Laws.EncodingRow.cge (rs1 rs2 : Reg) : Laws.EncodingRow.Statement (.cge rs1 rs2) :=
  ⟨(by decide : ("CGE", (0x35#8).setWidth 32 <<< 24, Format.c2.mask) ∈ tableRows),
    Laws.EncodingRow.masked _ _ _ _ _ (by simp [Instr.format, Format.usesRd])
      (by simp [Instr.format, Format.usesRs1]) (by simp [Instr.format, Format.usesRs2])⟩

theorem Laws.EncodingRow.and (rd rs1 rs2 : Reg) : Laws.EncodingRow.Statement (.and rd rs1 rs2) :=
  ⟨(by decide : ("AND", (0x40#8).setWidth 32 <<< 24, Format.r3.mask) ∈ tableRows),
    Laws.EncodingRow.masked _ _ _ _ _ (by simp [Instr.format, Format.usesRd])
      (by simp [Instr.format, Format.usesRs1]) (by simp [Instr.format, Format.usesRs2])⟩

theorem Laws.EncodingRow.or (rd rs1 rs2 : Reg) : Laws.EncodingRow.Statement (.or rd rs1 rs2) :=
  ⟨(by decide : ("OR", (0x41#8).setWidth 32 <<< 24, Format.r3.mask) ∈ tableRows),
    Laws.EncodingRow.masked _ _ _ _ _ (by simp [Instr.format, Format.usesRd])
      (by simp [Instr.format, Format.usesRs1]) (by simp [Instr.format, Format.usesRs2])⟩

theorem Laws.EncodingRow.xor (rd rs1 rs2 : Reg) : Laws.EncodingRow.Statement (.xor rd rs1 rs2) :=
  ⟨(by decide : ("XOR", (0x42#8).setWidth 32 <<< 24, Format.r3.mask) ∈ tableRows),
    Laws.EncodingRow.masked _ _ _ _ _ (by simp [Instr.format, Format.usesRd])
      (by simp [Instr.format, Format.usesRs1]) (by simp [Instr.format, Format.usesRs2])⟩

theorem Laws.EncodingRow.shl (rd rs1 : Reg) (imm : Nat) : Laws.EncodingRow.Statement (.shl rd rs1 imm) :=
  ⟨(by decide : ("SHL", (0x48#8).setWidth 32 <<< 24, Format.r2i.mask) ∈ tableRows),
    Laws.EncodingRow.masked _ _ _ _ _ (by simp [Instr.format, Format.usesRd])
      (by simp [Instr.format, Format.usesRs1]) (by simp [Instr.format, Format.usesRs2])⟩

theorem Laws.EncodingRow.shr (rd rs1 : Reg) (imm : Nat) : Laws.EncodingRow.Statement (.shr rd rs1 imm) :=
  ⟨(by decide : ("SHR", (0x49#8).setWidth 32 <<< 24, Format.r2i.mask) ∈ tableRows),
    Laws.EncodingRow.masked _ _ _ _ _ (by simp [Instr.format, Format.usesRd])
      (by simp [Instr.format, Format.usesRs1]) (by simp [Instr.format, Format.usesRs2])⟩

theorem Laws.EncodingRow.rend10 (rs1 : Reg) : Laws.EncodingRow.Statement (.rend10 rs1) :=
  ⟨(by decide : ("REND10", (0x50#8).setWidth 32 <<< 24, Format.s1.mask) ∈ tableRows),
    Laws.EncodingRow.masked _ _ _ _ _ (by simp [Instr.format, Format.usesRd])
      (by simp [Instr.format, Format.usesRs1]) (by simp [Instr.format, Format.usesRs2])⟩

theorem Laws.EncodingRow.rend2 (rs1 : Reg) : Laws.EncodingRow.Statement (.rend2 rs1) :=
  ⟨(by decide : ("REND2", (0x51#8).setWidth 32 <<< 24, Format.s1.mask) ∈ tableRows),
    Laws.EncodingRow.masked _ _ _ _ _ (by simp [Instr.format, Format.usesRd])
      (by simp [Instr.format, Format.usesRs1]) (by simp [Instr.format, Format.usesRs2])⟩

end Sys2Proof
end

