-- ==== Sys2Proof/Laws/Step.lean ====
section
/-! SUPPORT. Everything a command and a step can do, said once (spec/10_state.md R24; 70_reset_and_hazards.md R170), so
that no later proof unfolds `step` or `exec`. -/

namespace Sys2Proof.Machine

/-- `exec` always leads to a next state (60_exceptions.md R155: a fault is one). -/
theorem exec_next (i : Instr) (s : State) : ∃ s', exec i s = .next s' := by
  rw [exec_eq_guarded]; exact ⟨_, rfl⟩

/-- A command that names an absent register raises ILLEGAL; otherwise its result is finished. -/
theorem exec_cases {i : Instr} {s s' : State} (h : exec i s = .next s') :
    (s.hasRegs i.regs = false ∧ s' = s.raise .illegal) ∨
    (s.hasRegs i.regs = true ∧ s' = s.finish (resultOf i s)) := by
  rw [exec_eq_guarded] at h
  cases hh : s.hasRegs i.regs
  · rw [State.guarded_of_not_has hh] at h; cases h; exact .inl ⟨rfl, rfl⟩
  · rw [State.guarded_of_has hh] at h; cases h; exact .inr ⟨rfl, rfl⟩

/-- What a command leads to: a fault, its value in its destination, its bit in `T`, or its text in the response. -/
theorem exec_effect {i : Instr} {s s' : State} (h : exec i s = .next s') :
    (∃ c, s' = s.raise c) ∨
    (∃ rd v, i.dest = some rd ∧ s.hasRegs i.regs = true ∧ resultOf i s = .value rd v ∧
      tooLong s.cfg v = false ∧ s' = (s.writeReg rd v).complete []) ∨
    (∃ b, i.isCompare = true ∧ resultOf i s = .flag b ∧ s' = (s.writeT b).complete []) ∨
    (∃ x, (∃ a, i = .rend10 a ∨ i = .rend2 a) ∧ resultOf i s = .text x ∧ s' = s.complete x) := by
  rcases exec_cases h with ⟨_, rfl⟩ | ⟨hh, rfl⟩
  · exact .inl ⟨_, rfl⟩
  · rcases resultOf_kind i s with ⟨rd, hd, _, ⟨v, hv⟩ | ⟨c, hv⟩⟩ | ⟨_, hc, b, hv⟩ | ⟨_, _, ha, ⟨x, hv⟩ | ⟨c, hv⟩⟩ <;> rw [hv]
    · cases ht : tooLong s.cfg v
      · exact .inr (.inl ⟨rd, v, hd, hh, rfl, ht, State.finish_value ht rd⟩)
      · exact .inl ⟨_, State.finish_tooLong ht rd⟩
    · exact .inl ⟨c, rfl⟩
    · exact .inr (.inr (.inl ⟨b, hc, rfl, rfl⟩))
    · exact .inr (.inr (.inr ⟨x, ha, rfl, rfl⟩))
    · exact .inl ⟨c, rfl⟩

/-- What a step is: a reset, an illegal word, or the command a word decodes to. -/
theorem step_cases {s s' : State} (h : step s = .next s') :
    (s.presented = some .reset ∧ s' = s.takeReset) ∨
    ∃ w imm, s.presented = some (.command w imm) ∧
      ((∃ e, decode s.cfg w imm = .error e ∧ s' = s.raise .illegal) ∨
       ∃ i, decode s.cfg w imm = .ok i ∧ exec i s = .next s') := by
  unfold step at h
  split at h
  · cases h
  · rename_i hp; cases h; exact .inl ⟨hp, rfl⟩
  · rename_i w imm hp
    refine .inr ⟨w, imm, hp, ?_⟩
    split at h
    · rename_i e he; cases h; exact .inl ⟨e, he, rfl⟩
    · rename_i i hi; exact .inr ⟨i, hi, h⟩

/-- A presented word always leads to a next state: no command word stops the machine. -/
theorem step_next {s : State} {w : Cmd} {imm : Nat} (h : s.presented = some (.command w imm)) :
    ∃ s', step s = .next s' := by
  unfold step; rw [h]; simp only
  split
  · exact ⟨_, rfl⟩
  · exact exec_next _ _

/-- The entry placed at an index is the entry found there. -/
theorem placeAt_get (p : List HostMove) (n : Nat) (m : HostMove) : (placeAt p n m)[n]? = some m := by
  induction n generalizing p with
  | zero => cases p <;> rfl
  | succ n ih => cases p <;> simpa [placeAt] using ih _

/-- Placing an entry leaves the entries before it as they were. -/
theorem placeAt_get_lt (p : List HostMove) (n k : Nat) (m : HostMove) (hk : k < n) (hp : n ≤ p.length) :
    (placeAt p n m)[k]? = p[k]? := by
  induction p generalizing n k with
  | nil => simp at hp; omega
  | cons h p ih =>
    cases n with
    | zero => omega
    | succ n => cases k with
      | zero => rfl
      | succ k => simpa [placeAt] using ih n k (by omega) (by simpa using hp)

/-- The very next step runs the placed word. -/
theorem presented_withFetchWord (s : State) (nbits w : Nat) :
    (s.withFetchWord nbits w).presented = some (.command (tableWord nbits w) 0) := placeAt_get _ _ _

end Sys2Proof.Machine
end

