-- ==== Sys2Proof/Laws/Units.lean ====
section
/-! SUPPORT. Lengths and numbers of the plain bit-vector functions (spec/00_scope.md R6), for the proofs about the
datapath units. -/

namespace Sys2Proof.Machine

@[simp] theorem bitNat_false : bitNat false = 0 := rfl
@[simp] theorem bitNat_true : bitNat true = 1 := rfl

theorem bitNat_le_one (b : Bit) : bitNat b ≤ 1 := by cases b <;> simp

@[simp] theorem length_zeros (k : Nat) : (zeros k).length = k := by simp [zeros]
@[simp] theorem zeros_zero : zeros 0 = [] := rfl
@[simp] theorem zeros_succ (k : Nat) : zeros (k + 1) = false :: zeros k := rfl

@[simp] theorem uval_nil : uval [] = 0 := rfl
@[simp] theorem uval_cons (b : Bit) (x : Bits) : uval (b :: x) = bitNat b * 2 ^ x.length + uval x := rfl
@[simp] theorem uval_zeros (k : Nat) : uval (zeros k) = 0 := by
  induction k with
  | zero => rfl
  | succ k ih => simp [ih]

theorem uval_lt (x : Bits) : uval x < 2 ^ x.length := by
  induction x with
  | nil => simp
  | cons b x ih =>
    have := Nat.mul_le_mul_right (2 ^ x.length) (bitNat_le_one b)
    simp only [uval_cons, List.length_cons, Nat.pow_succ]
    omega

theorem uval_append (x y : Bits) : uval (x ++ y) = uval x * 2 ^ y.length + uval y := by
  induction x with
  | nil => simp
  | cons b x ih => simp [ih, Nat.pow_add]; ring

/-- Vectors of one length are equal when their numbers are. -/
theorem uval_inj {x y : Bits} (hl : x.length = y.length) (h : uval x = uval y) : x = y := by
  induction x generalizing y with
  | nil => cases y with
    | nil => rfl
    | cons _ _ => simp at hl
  | cons a x ih => cases y with
    | nil => simp at hl
    | cons b y =>
      have hl' : x.length = y.length := by simpa using hl
      have hx := uval_lt x
      have hy := uval_lt y
      rw [hl'] at hx
      simp only [uval_cons, hl'] at h
      have hab : a = b := by cases a <;> cases b <;> first | rfl | (simp at h; omega)
      subst hab
      rw [ih hl' (by omega)]

@[simp] theorem length_bv (w v : Nat) : (bv w v).length = w := by
  induction w with
  | zero => rfl
  | succ w ih => simp [bv, ih]

/-- `bv(w, v)` has the value `v` when it fits, and `v mod 2^w` in general. -/
theorem uval_bv (w v : Nat) : uval (bv w v) = v % 2 ^ w := by
  induction w with
  | zero => simp [bv, Nat.mod_one]
  | succ w ih =>
    have hq : v % 2 ^ (w + 1) = v % 2 ^ w + 2 ^ w * (v / 2 ^ w % 2) := by
      rw [Nat.pow_succ, Nat.mod_mul]
    have hb : bitNat (v.testBit w) = v / 2 ^ w % 2 := by
      rw [Nat.testBit_eq_decide_div_mod_eq]
      rcases Nat.mod_two_eq_zero_or_one (v / 2 ^ w) with h | h <;> simp [h]
    rw [bv, uval_cons, ih, length_bv, hq, hb]
    ring

/-- A canonical magnitude is not empty. -/
theorem CanonicalMag.ne_nil {x : Bits} (h : CanonicalMag x) : x ≠ [] := by
  rintro rfl
  simp [CanonicalMag] at h

/-- A magnitude with a leading 1 has at least the weight of that bit. -/
theorem le_uval_of_head {x : Bits} (h : x.head? = some true) : 2 ^ (x.length - 1) ≤ uval x := by
  cases x with
  | nil => simp at h
  | cons b x =>
    obtain rfl : b = true := by simpa using h
    simp

end Sys2Proof.Machine
end

