-- ==== Sys2Proof/Tests/Slice0.lean ====
section
/-! SUPPORT. The model's own tests: ill-formed terms refused, one word per command decoded, the vectors of
spec/95_test_vectors.md on single steps, and a witness for the hypotheses of every statement that has any.
Every expected value is the spec's. -/

namespace Sys2Proof.Tests

open Sys2Proof.Machine

/-! ## Helpers -/

/-- `+[b0, b1, ...]` as the spec writes it. -/
def plus (b : List Nat) : BigVal := ⟨false, b.map fun x => decide (x = 1)⟩

/-- `-[b0, b1, ...]` as the spec writes it. -/
def minus (b : List Nat) : BigVal := ⟨true, b.map fun x => decide (x = 1)⟩

/-- `n` copies of 1. -/
def ones (n : Nat) : List Nat := List.replicate n 1

/-- `NREG = 8`, `MAXBITS = 3`, `ACCW = 3`: the boundaries within reach of small values. -/
def small : Config := { natw := 32, nreg := 8, maxbits := some 3, accw := some 3 }

/-- The reset state with some registers holding other values. -/
def machine (c : Config) (file : List (Reg × BigVal)) : State :=
  file.foldl (fun s x => s.writeReg x.1 x.2) (State.resetWith c [])

/-- The machine with its host presenting one word. -/
def given (c : Config) (file : List (Reg × BigVal)) (w : Cmd) (imm : Nat) : State :=
  (machine c file).present (.command w imm)

/-- The state a step leads to; the state itself where it leads to none. -/
def stepped (s : State) : State := (nextOf (step s)).getD s

/-- Register `r` after one step. -/
def regAfter (c : Config) (file : List (Reg × BigVal)) (w : Cmd) (imm : Nat) (r : Reg) : Option BigVal :=
  (nextOf (step (given c file w imm))).map fun s => s.readReg r

/-- The response after one step. -/
def respAfter (c : Config) (file : List (Reg × BigVal)) (w : Cmd) (imm : Nat) : Option Response :=
  (nextOf (step (given c file w imm))).bind fun s => s.respPort

/-- `T` after one step. -/
def tAfter (c : Config) (file : List (Reg × BigVal)) (w : Cmd) (imm : Nat) : Option Bit :=
  (nextOf (step (given c file w imm))).map fun s => s.tPort

/-- `FSR` after one step. -/
def fsrAfter (c : Config) (file : List (Reg × BigVal)) (w : Cmd) (imm : Nat) : Option (BitVec 6) :=
  (nextOf (step (given c file w imm))).map fun s => s.fsrPort

/-- The default configuration, `NATW = 32`, `NREG = 16`, `MAXBITS = none`, `ACCW = 64`. -/
abbrev std : Config := Config.standard

/-! ## Well-formedness refuses ill-formed terms -/

/-- 30_encoding.md R45 step 3: an index `>= NREG` in a used field. -/
theorem test_wf_absent_register :
    (Instr.add 3 1 8).wf small = false ∧ (Instr.add 8 1 2).wf small = false ∧ (Instr.add 3 1 7).wf small = true := by
  decide

/-- 30_encoding.md R43: an `imm` value wider than the port. -/
theorem test_wf_wide_imm :
    (Instr.fromint 1 0x100000000).wf std = false ∧ (Instr.shl 1 1 0x100000000).wf std = false ∧
    (Instr.shr 1 1 0xFFFFFFFF).wf std = true := by
  decide

/-- 00_scope.md R5: configurations outside the ranges. -/
theorem test_config_ranges :
    ¬ Config.wf ⟨1, 16, none, none⟩ ∧ ¬ Config.wf ⟨2, 0, none, none⟩ ∧ ¬ Config.wf ⟨2, 17, none, none⟩ ∧
    ¬ Config.wf ⟨2, 1, some 0, none⟩ ∧ ¬ Config.wf ⟨2, 1, none, some 0⟩ ∧ Config.wf ⟨2, 1, some 1, some 1⟩ := by
  decide

/-! ## Decoding: one word per command, from the worked examples of 41 to 49 and 30 -/

/-- 41_construct.md, worked examples. -/
theorem test_decode_construct :
    decode std 0x01700000#32 0 = .ok (.zero 7) ∧ decode std 0x02100000#32 0xFFFFFFFD = .ok (.fromint 1 0xFFFFFFFD) := by
  decide

/-- 42_add_sub.md and 43_multiply.md, worked examples. -/
theorem test_decode_add_sub_mul :
    decode std 0x10312000#32 0 = .ok (.add 3 1 2) ∧ decode std 0x11312000#32 0 = .ok (.sub 3 1 2) ∧
    decode std 0x18312000#32 0 = .ok (.mul 3 1 2) := by
  decide

/-- 44_inc_dec.md, worked examples. -/
theorem test_decode_inc_dec :
    decode std 0x20400000#32 0 = .ok (.inc 4) ∧ decode std 0x21400000#32 0 = .ok (.dec 4) := by
  decide

/-- 45_unary.md, worked examples. -/
theorem test_decode_unary :
    decode std 0x28210000#32 0 = .ok (.neg 2 1) ∧ decode std 0x29510000#32 0 = .ok (.mov 5 1) ∧
    decode std 0x2A210000#32 0 = .ok (.abs 2 1) ∧ decode std 0x2B210000#32 0 = .ok (.not 2 1) := by
  decide

/-- 46_compare.md, worked examples. -/
theorem test_decode_compare :
    decode std 0x30012000#32 0 = .ok (.ceq 1 2) ∧ decode std 0x31012000#32 0 = .ok (.cne 1 2) ∧
    decode std 0x32012000#32 0 = .ok (.clt 1 2) ∧ decode std 0x33012000#32 0 = .ok (.cgt 1 2) ∧
    decode std 0x34012000#32 0 = .ok (.cle 1 2) ∧ decode std 0x35012000#32 0 = .ok (.cge 1 2) := by
  decide

/-- 47_bitwise.md, worked examples. -/
theorem test_decode_bitwise :
    decode std 0x40312000#32 0 = .ok (.and 3 1 2) ∧ decode std 0x41312000#32 0 = .ok (.or 3 1 2) ∧
    decode std 0x42312000#32 0 = .ok (.xor 3 1 2) := by
  decide

/-- 48_shift.md, worked examples. -/
theorem test_decode_shift :
    decode std 0x48210000#32 2 = .ok (.shl 2 1 2) ∧ decode std 0x49210000#32 2 = .ok (.shr 2 1 2) := by
  decide

/-- 49_render.md, worked examples. -/
theorem test_decode_render :
    decode std 0x50030000#32 0 = .ok (.rend10 3) ∧ decode std 0x51050000#32 0 = .ok (.rend2 5) := by
  decide

/-- The rows E3 to E14 of 95_test_vectors.md: words that decode to nothing, by reason. -/
theorem test_decode_illegal :
    decode std 0x00000000#32 0 = .error .unassignedOpcode ∧ decode std 0xFFFFFFFF#32 0 = .error .unassignedOpcode ∧
    decode std 0x12312000#32 0 = .error .unassignedOpcode ∧ decode std 0x4A210000#32 1 = .error .unassignedOpcode ∧
    decode std 0x10312001#32 0 = .error .unusedFieldNotZero ∧ decode std 0x10312800#32 0 = .error .unusedFieldNotZero ∧
    decode std 0x28213000#32 0 = .error .unusedFieldNotZero ∧ decode std 0x20410000#32 0 = .error .unusedFieldNotZero ∧
    decode std 0x30112000#32 0 = .error .unusedFieldNotZero ∧ decode std 0x51051000#32 0 = .error .unusedFieldNotZero ∧
    decode small 0x10912000#32 0 = .error .noSuchRegister ∧ decode std 0x10912000#32 0 = .ok (.add 9 1 2) := by
  decide

/-- The words of R49's table, assembled. -/
theorem test_encode :
    encode (.add 3 1 2) = 0x10312000#32 ∧ encode (.neg 2 1) = 0x28210000#32 ∧ encode (.inc 4) = 0x20400000#32 ∧
    encode (.fromint 1 0xFFFFFFFD) = 0x02100000#32 ∧ encode (.shl 2 1 4) = 0x48210000#32 ∧
    encode (.clt 1 2) = 0x32012000#32 ∧ encode (.rend2 5) = 0x51050000#32 := by
  decide

/-- The bits of a table word are `cmd[31:0]` (30_encoding.md R40): `ADD V3, V1, V2`. -/
theorem test_table_word :
    decodeTableWord 32 0x10312000 = some (.add 3 1 2) ∧ decodeTableWord 32 0x00000000 = none := by
  decide

/-! ## The datapath units, 95_test_vectors.md section 2 -/

/-- NM3, NM7, NM9. -/
theorem test_norm :
    canon true [false, false] = plus [0] ∧ canon true (plus [0, 0, 1, 0, 1]).mag = minus [1, 0, 1] ∧
    normMag (plus [0, 1, 1, 1, 1]).mag = (plus [1, 1, 1, 1]).mag := by
  decide

/-- X1, X6, X11. -/
theorem test_magx :
    magx 0 = plus [0] ∧ magx (-3) = minus [1, 1] ∧ magx (-1000) = minus [1, 1, 1, 1, 1, 0, 1, 0, 0, 0] := by
  decide

/-- MC5, MC6, MC7, MC9, and the note of R63 on a vector with a leading zero. -/
theorem test_mcmp :
    mcmp (plus [1, 0, 1]).mag (plus [1, 1]).mag = .gt ∧ mcmp (plus [1, 0, 1]).mag (plus [1, 1, 0]).mag = .lt ∧
    mcmp (plus [1, 1, 0]).mag (plus [1, 0, 1]).mag = .gt ∧ mcmp (plus [1, 0, 1, 1]).mag (plus [1, 0, 1, 1]).mag = .eq ∧
    mcmp (plus [0, 1]).mag (plus [1]).mag = .gt := by
  decide

/-- W1, W3, W7. -/
theorem test_tcw :
    tcw (padw (plus [0]).mag 3) = (plus [0, 0, 0]).mag ∧ tcw (padw (plus [1, 1]).mag 5) = (plus [1, 1, 1, 0, 1]).mag ∧
    tcw (plus [1, 1, 1, 1]).mag = (plus [0, 0, 0, 1]).mag := by
  decide

/-- RC3, RC5. -/
theorem test_rca :
    rca (plus [0, 0, 1, 0, 1]).mag (plus [1, 1, 1, 0, 1]).mag = ((plus [0, 0, 0, 1, 0]).mag, true) ∧
    rca (plus [0, 0, 1, 1, 1]).mag (plus [0, 0, 0, 0, 1]).mag = ((plus [0, 1, 0, 0, 0]).mag, false) := by
  decide

/-- TR2, TR3, TR10: sign, padded magnitude, result. -/
theorem test_addsm :
    addMagnitude (minus [1, 0, 1]) (minus [1, 1]) = (plus [0, 1, 0, 0, 0]).mag ∧
    addsm (plus [1, 0, 1]) (minus [1, 0, 1]) = plus [0] ∧ addsm (plus [1, 0, 1]) (minus [1, 1, 0]) = minus [1] := by
  decide

/-- L1, L6. -/
theorem test_logicw :
    logicw .and (plus [1, 1, 0, 0]).mag (plus [1, 0, 1]).mag = (plus [0, 1, 0, 0]).mag ∧
    logicw .xor (plus [1, 1, 1, 1]).mag (plus [1, 0, 0, 0, 0]).mag = (plus [1, 1, 1, 1, 1]).mag := by
  decide

/-! ## The commands, 95_test_vectors.md section 3, one step each -/

/-- K1: the old content does not matter, the response is `(1, 0, 0, "")`. -/
theorem test_zero :
    regAfter std [(7, minus [1, 1])] 0x01700000#32 5 7 = some (plus [0]) ∧
    respAfter std [] 0x01700000#32 5 = some ⟨true, 0, false, []⟩ := by
  decide

/-- K6, K7. -/
theorem test_fromint :
    regAfter std [] 0x02100000#32 0xFFFFFFFD 1 = some (minus [1, 1]) ∧
    regAfter std [] 0x02F00000#32 0x7FFFFFFF 15 = some (plus (ones 31)) := by
  decide

/-- K9: RANGE, the destination unchanged. -/
theorem test_fromint_range :
    regAfter std [(1, plus [1, 0, 0, 1])] 0x02100000#32 0x80000000 1 = some (plus [1, 0, 0, 1]) ∧
    respAfter std [] 0x02100000#32 0x80000000 = some ⟨false, 2, false, []⟩ ∧
    fsrAfter std [] 0x02100000#32 0x80000000 = some 0b000100#6 := by
  decide

/-- A1 and E2: opposite signs, with a value on the port that the command ignores. -/
theorem test_add :
    regAfter std [(1, plus [1, 0, 1]), (2, minus [1, 1])] 0x10312000#32 0xDEADBEEF 3 = some (plus [1, 0]) := by
  decide

/-- `ADD V1, V1, V1` doubles (95_test_vectors.md, after A16). -/
theorem test_add_aliased : regAfter std [(1, plus [1, 1])] 0x10111000#32 0 1 = some (plus [1, 1, 0]) := by
  decide

/-- A11. -/
theorem test_sub :
    regAfter std [(1, plus [1, 0, 1]), (2, plus [1, 1, 1])] 0x11312000#32 0 3 = some (minus [1, 0]) := by
  decide

/-- A14: `-5 - -5` is `+[0]`. -/
theorem test_sub_zero :
    regAfter std [(1, minus [1, 0, 1]), (2, minus [1, 0, 1])] 0x11312000#32 0 3 = some (plus [0]) := by
  decide

/-- M5: a zero product is not negative. -/
theorem test_mul_zero : regAfter std [(1, plus [0]), (2, minus [1, 1])] 0x18312000#32 0 3 = some (plus [0]) := by
  decide

/-- `MUL V1, V1, V1` of -5 (95_test_vectors.md, after M10). -/
theorem test_mul_aliased : regAfter std [(1, minus [1, 0, 1])] 0x18111000#32 0 1 = some (plus [1, 1, 0, 0, 1]) := by
  decide

/-- I3, I4. -/
theorem test_inc :
    regAfter std [(4, minus [1])] 0x20400000#32 0 4 = some (plus [0]) ∧
    regAfter std [(4, plus [1, 1, 1])] 0x20400000#32 0 4 = some (plus [1, 0, 0, 0]) := by
  decide

/-- CAPACITY on INC: 8 does not fit `MAXBITS = 3` (60_exceptions.md R153). -/
theorem test_inc_capacity :
    regAfter small [(4, plus [1, 1, 1])] 0x20400000#32 0 4 = some (plus [1, 1, 1]) ∧
    respAfter small [(4, plus [1, 1, 1])] 0x20400000#32 0 = some ⟨false, 5, false, []⟩ := by
  decide

/-- I1, I7. -/
theorem test_dec :
    regAfter std [(4, plus [0])] 0x21400000#32 0 4 = some (minus [1]) ∧
    regAfter std [(4, minus [1, 1, 1])] 0x21400000#32 0 4 = some (minus [1, 0, 0, 0]) := by
  decide

/-- U2, U3. -/
theorem test_neg :
    regAfter std [(1, minus [1, 1])] 0x28210000#32 0 2 = some (plus [1, 1]) ∧
    regAfter std [(1, plus [0])] 0x28210000#32 0 2 = some (plus [0]) := by
  decide

/-- U4. -/
theorem test_mov : regAfter std [(1, minus [1, 1])] 0x29210000#32 0 2 = some (minus [1, 1]) := by
  decide

/-- U5. -/
theorem test_abs : regAfter std [(1, minus [1, 1])] 0x2A210000#32 0 2 = some (plus [1, 1]) := by
  decide

/-- U9, U10, U11. -/
theorem test_not :
    regAfter std [(1, plus [1, 1, 1])] 0x2B210000#32 0 2 = some (plus [0]) ∧
    regAfter std [(1, plus [1, 0, 1])] 0x2B210000#32 0 2 = some (minus [1, 0]) ∧
    regAfter std [(1, minus [1, 0])] 0x2B210000#32 0 2 = some (plus [1]) := by
  decide

/-- Q12, Q3, CEQ and CNE. -/
theorem test_ceq_cne :
    tAfter std [(1, minus [1, 1, 0]), (2, minus [1, 1, 0])] 0x30012000#32 0 = some true ∧
    tAfter std [(1, minus [1, 1, 0]), (2, minus [1, 1, 0])] 0x31012000#32 0 = some false ∧
    tAfter std [(1, plus [1, 0, 1]), (2, minus [1, 0, 1])] 0x30012000#32 0 = some false ∧
    tAfter std [(1, plus [1, 0, 1]), (2, minus [1, 0, 1])] 0x31012000#32 0 = some true := by
  decide

/-- Q11, Q7, CLT and CGT. -/
theorem test_clt_cgt :
    tAfter std [(1, minus [1, 0, 1]), (2, minus [1, 1, 0])] 0x32012000#32 0 = some false ∧
    tAfter std [(1, minus [1, 0, 1]), (2, minus [1, 1, 0])] 0x33012000#32 0 = some true ∧
    tAfter std [(1, plus [1, 0, 1]), (2, plus [1, 1, 0])] 0x32012000#32 0 = some true ∧
    tAfter std [(1, plus [1, 0, 1]), (2, plus [1, 1, 0])] 0x33012000#32 0 = some false := by
  decide

/-- Q1, Q9, CLE and CGE. -/
theorem test_cle_cge :
    tAfter std [] 0x34012000#32 0 = some true ∧ tAfter std [] 0x35012000#32 0 = some true ∧
    tAfter std [(1, minus [1, 0, 1]), (2, minus [1, 1])] 0x34012000#32 0 = some true ∧
    tAfter std [(1, minus [1, 0, 1]), (2, minus [1, 1])] 0x35012000#32 0 = some false := by
  decide

/-- B6, B5. -/
theorem test_and :
    regAfter std [(1, minus [1]), (2, plus [1, 0, 1])] 0x40312000#32 0 3 = some (minus [1]) ∧
    regAfter std [(1, minus [1, 0, 1]), (2, plus [1, 0])] 0x40312000#32 0 3 = some (plus [0]) := by
  decide

/-- B3, B4, B8: the receiver's sign. -/
theorem test_or :
    regAfter std [(1, minus [1, 0, 0]), (2, plus [1, 1])] 0x41312000#32 0 3 = some (minus [1, 1, 1]) ∧
    regAfter std [(1, plus [1, 1]), (2, minus [1, 0, 0])] 0x41312000#32 0 3 = some (plus [1, 1, 1]) ∧
    regAfter std [(1, plus [0]), (2, minus [1, 1, 1])] 0x41312000#32 0 3 = some (plus [1, 1, 1]) := by
  decide

/-- B2, B7. -/
theorem test_xor :
    regAfter std [(1, plus [1, 0, 1]), (2, plus [1, 1, 0])] 0x42312000#32 0 3 = some (plus [1, 1]) ∧
    regAfter std [(1, minus [1, 0, 1]), (2, minus [1, 0, 1])] 0x42312000#32 0 3 = some (plus [0]) := by
  decide

/-- H3, H10. -/
theorem test_shl :
    regAfter std [(1, minus [1, 0, 1])] 0x48210000#32 1 2 = some (minus [1, 0, 1, 0]) ∧
    regAfter std [(1, plus [0])] 0x48210000#32 2 2 = some (plus [0]) := by
  decide

/-- H3, H5, H7: toward zero, and the length itself. -/
theorem test_shr :
    regAfter std [(1, minus [1, 0, 1])] 0x49210000#32 1 2 = some (minus [1, 0]) ∧
    regAfter std [(1, plus [1, 0, 1])] 0x49210000#32 3 2 = some (plus [0]) ∧
    regAfter std [(1, minus [1])] 0x49210000#32 1 2 = some (plus [0]) := by
  decide

/-- H6, H10: one more than the length. -/
theorem test_shr_range :
    regAfter std [(1, plus [1, 0, 1]), (2, plus [1])] 0x49210000#32 4 2 = some (plus [1]) ∧
    fsrAfter std [(1, plus [1, 0, 1])] 0x49210000#32 4 = some 0b001000#6 ∧
    respAfter std [(1, plus [0])] 0x49210000#32 2 = some ⟨false, 3, false, []⟩ := by
  decide

/-- T1, T6, T7: "0", "-21", "120" in the codes of 49_render.md R145. -/
theorem test_rend10 :
    respAfter std [] 0x50010000#32 0 = some ⟨true, 0, false, [0x30]⟩ ∧
    respAfter std [(1, minus [1, 0, 1, 0, 1])] 0x50010000#32 0 = some ⟨true, 0, false, [0x2D, 0x32, 0x31]⟩ ∧
    respAfter std [(1, plus [1, 1, 1, 1, 0, 0, 0])] 0x50010000#32 0 = some ⟨true, 0, false, [0x31, 0x32, 0x30]⟩ := by
  decide

/-- T9, T10: 64 bits render, 65 do not. -/
theorem test_rend10_overflow :
    (respAfter std [(1, plus (ones 64))] 0x50010000#32 0).map (fun r => (r.ok, r.txt.length)) = some (true, 20) ∧
    respAfter std [(1, plus (1 :: List.replicate 64 0))] 0x50010000#32 0 = some ⟨false, 4, false, []⟩ := by
  decide

/-- T5, T1: "-(11)_2" and "(0)_2". -/
theorem test_rend2 :
    respAfter std [(1, minus [1, 1])] 0x51010000#32 0 =
      some ⟨true, 0, false, [0x2D, 0x28, 0x31, 0x31, 0x29, 0x5F, 0x32]⟩ ∧
    respAfter std [] 0x51010000#32 0 = some ⟨true, 0, false, [0x28, 0x30, 0x29, 0x5F, 0x32]⟩ := by
  decide

/-! ## Faults, reset, the end of a run -/

/-- E5, E14 at `NREG = 8`: ILLEGAL, nothing written. -/
theorem test_illegal_word :
    respAfter std [(1, plus [1, 0, 1])] 0x10312001#32 0 = some ⟨false, 1, false, []⟩ ∧
    fsrAfter std [] 0x00000000#32 0 = some 0b000010#6 ∧
    respAfter small [(1, plus [1, 0, 1])] 0x10912000#32 0 = some ⟨false, 1, false, []⟩ ∧
    regAfter std [(3, plus [1, 1])] 0x10312001#32 0 3 = some (plus [1, 1]) := by
  decide

/-- F2, F3: `FSR` keeps its bits when a command completes and adds one when it faults; a fault keeps `T`. -/
theorem test_fsr_sticky :
    (stepped { given std [] 0x02100000#32 6 with fsr := 0b000100#6, t := true }).fsr = 0b000100#6 ∧
    (stepped { given std [(1, plus [1, 1, 0])] 0x49210000#32 4 with fsr := 0b000100#6, t := true }).fsr = 0b001100#6 ∧
    (stepped { given std [(1, plus [1, 1, 0])] 0x49210000#32 4 with t := true }).respPort = some ⟨false, 3, true, []⟩ := by
  decide

/-- 10_state.md R17: the index advances by 1 after a command and after a fault. -/
theorem test_index :
    (stepped (given std [] 0x01700000#32 0)).pc = 1 ∧ (stepped (given std [] 0x00000000#32 0)).pc = 1 := by
  decide

/-- 10_state.md R21. -/
theorem test_reset :
    State.reset.regs = List.replicate 16 (plus [0]) ∧ State.reset.t = false ∧ State.reset.fsr = 0#6 ∧
    State.reset.respPort = none ∧ State.reset.pc = 0 := by
  decide

/-- 70_reset_and_hazards.md R170: a reset between commands. -/
theorem test_reset_move :
    (stepped { (machine std [(1, minus [1, 1])]).present .reset with fsr := 0b000010#6, t := true }).regs =
      List.replicate 16 (plus [0]) ∧
    (stepped { (machine std []).present .reset with fsr := 0b000010#6, t := true }).fsr = 0#6 := by
  decide

/-- 60_exceptions.md R160: after the last command the run has ended. -/
theorem test_run_ended : step State.reset = .fault .runEnded := by
  rfl

/-- The word placed next is the word the very next step runs (K1). -/
theorem test_fetch_word :
    (stepped (State.reset.withFetchWord 32 0x01700000)).respPort = some ⟨true, 0, false, []⟩ ∧
    (State.reset.withFetchWord 32 0x01700000).regs = State.reset.regs := by
  decide

/-! ## Assembler side, 30_encoding.md R49, R50 -/

/-- R49's table. -/
theorem test_assembly_text :
    assemblyText std (.add 3 1 2) = "ADD V3, V1, V2" ∧ assemblyText std (.fromint 1 0xFFFFFFFD) = "FROMINT V1, #-3" ∧
    assemblyText std (.shl 2 1 4) = "SHL V2, V1, #4" ∧ assemblyText std (.rend2 5) = "REND2 V5" := by
  decide

/-- `ONE Vd`, `PLUS Vd, Va`, and the words of `POSTINC V5, V4` (95_test_vectors.md, after I8). -/
theorem test_pseudo :
    expand (.one 3) = [.fromint 3 1] ∧ expand (.plus 3 1) = [.mov 3 1] ∧
    hostList (expand (.postinc 5 4)) = [.command 0x29540000#32 0, .command 0x20400000#32 0] := by
  decide

/-! ## Witnesses: for every statement with hypotheses, a state and operands that meet them all

Where a statement has several clauses, each has its witness, at the boundary of its range. -/

/-- A legal state under `small`, registers at the bound: `V1 = +[1,1,1]`, `V2 = -[1,1]`, `V3 = +[1]`. -/
def full : State := machine small [(1, plus [1, 1, 1]), (2, minus [1, 1]), (3, plus [1])]

/-- A legal state under the default configuration: `V1 = +[1,0,1]`, `V2 = -[1,1]`. -/
def free : State := machine std [(1, plus [1, 0, 1]), (2, minus [1, 1])]

/-- `full` after an illegal word: one fault reported. -/
def faulted : State := stepped (full.present (.command 0x00000000#32 0))

theorem witness_DecodeOfEncode :
    (Instr.fromint 15 0xFFFFFFFF).wf std = true ∧ (Instr.add 7 0 7).wf small = true := by decide

theorem witness_EncodeOfDecode : decode small 0x10707000#32 0xFFFFFFFFF = .ok (.add 7 0 7) := by decide

/-- Each clause: no row's opcode; a row's opcode outside its mask; inside its mask, registers present and absent. -/
theorem witness_DecodingProcedure :
    (∀ row ∈ tableRows, 0x4A210000#32 &&& 0xFF000000#32 ≠ row.2.1) ∧
    (0x28213000#32 &&& 0xFF000000#32 = 0x28000000#32 ∧ 0x28213000#32 &&& 0xFF00FFFF#32 ≠ 0x28000000#32) ∧
    (0x28270000#32 &&& 0xFF00FFFF#32 = 0x28000000#32 ∧ (Instr.neg 2 7).regsExist small.nreg = true) ∧
    (0x28280000#32 &&& 0xFF00FFFF#32 = 0x28000000#32 ∧ (Instr.neg 2 8).regsExist small.nreg = false) := by decide

/-- A presented word for each of the three reasons. -/
theorem witness_IllegalWords :
    (full.present (.command 0x03100000#32 5)).presented = some (.command 0x03100000#32 5) ∧
    decode small 0x03100000#32 5 = .error .unassignedOpcode ∧
    (full.present (.command 0x20410000#32 0)).presented = some (.command 0x20410000#32 0) ∧
    decode small 0x20410000#32 0 = .error .unusedFieldNotZero ∧
    (full.present (.command 0x10812000#32 0)).presented = some (.command 0x10812000#32 0) ∧
    decode small 0x10812000#32 0 = .error .noSuchRegister := by decide

theorem witness_ImmediatePort :
    opcodeOf 0x10312000#32 ∉ [0x02#8, 0x48#8, 0x49#8] ∧ 5 % 2 ^ std.natw = (5 + 2 ^ 32) % 2 ^ std.natw := by decide

theorem witness_StepRunsTheDecodedCommand :
    ((free.present (.command 0x10312000#32 0)).presented = some (.command 0x10312000#32 0) ∧
      decode free.cfg 0x10312000#32 0 = .ok (.add 3 1 2)) ∧
    (free.present .reset).presented = some .reset ∧ free.presented = none := by decide

theorem witness_ResetState : (7 : Reg).toNat < small.nreg ∧ (15 : Reg).toNat < std.nreg := by decide

theorem witness_ResetMove : (faulted.present .reset).presented = some .reset ∧ (7 : Reg).toNat < faulted.cfg.nreg := by decide

theorem witness_ResetMeetsTheInvariants : Config.wf std ∧ Config.wf small ∧ Config.wf ⟨2, 1, some 1, some 1⟩ := by decide

/-- A reset, an illegal word, a fault and a completed command from legal states. -/
theorem witness_StepKeepsInv :
    (full.present .reset).Inv ∧ step (full.present .reset) = .next (stepped (full.present .reset)) ∧
    (full.present (.command 0x20100000#32 0)).Inv ∧
    step (full.present (.command 0x20100000#32 0)) = .next (stepped (full.present (.command 0x20100000#32 0))) ∧
    (free.present (.command 0x10312000#32 0)).Inv ∧
    step (free.present (.command 0x10312000#32 0)) = .next (stepped (free.present (.command 0x10312000#32 0))) :=
  ⟨by decide, rfl, by decide, rfl, by decide, rfl⟩

theorem witness_StepKeepsRecord :
    State.Record { faulted with program := faulted.program ++ [.command 0x32012000#32 0] } ∧
    step { faulted with program := faulted.program ++ [.command 0x32012000#32 0] } =
      .next (stepped { faulted with program := faulted.program ++ [.command 0x32012000#32 0] }) :=
  ⟨by decide, rfl⟩

/-- Both sides: a run gone wrong and a run that has not. -/
theorem witness_GoneWrongIffSomeFault :
    (faulted.Inv ∧ faulted.Record ∧ faulted.goneWrong ∧ ∃ r ∈ faulted.responses, r.ok = false) ∧
    (full.Inv ∧ full.Record ∧ ¬ full.goneWrong) := by decide

theorem witness_StepKeepsConfigurationAndProgram :
    step (full.present (.command 0x20100000#32 0)) = .next (stepped (full.present (.command 0x20100000#32 0))) := rfl

/-- A word of another opcode, a REND10 and a REND2 that succeed, and a fault. -/
theorem witness_OneResponsePerCommand :
    (free.present (.command 0x10312000#32 0)).presented = some (.command 0x10312000#32 0) ∧
    opcodeOf 0x10312000#32 ∉ [0x50#8, 0x51#8] ∧
    decode std 0x50010000#32 0 = .ok (.rend10 1) ∧ (respAfter std [] 0x50010000#32 0).map (·.ok) = some true ∧
    decode std 0x51010000#32 0 = .ok (.rend2 1) ∧ (respAfter std [] 0x51010000#32 0).map (·.ok) = some true ∧
    (respAfter std [] 0x00000000#32 0).map (·.ok) = some false := by decide

/-- The lowest and the highest cause. -/
theorem witness_FaultEffect :
    ((full.present (.command 0x00000000#32 0)).presented = some (.command 0x00000000#32 0) ∧
      step (full.present (.command 0x00000000#32 0)) = .next (stepped (full.present (.command 0x00000000#32 0))) ∧
      (stepped (full.present (.command 0x00000000#32 0))).respPort = some ⟨false, 1, false, []⟩) ∧
    ((full.present (.command 0x20100000#32 0)).presented = some (.command 0x20100000#32 0) ∧
      step (full.present (.command 0x20100000#32 0)) = .next (stepped (full.present (.command 0x20100000#32 0))) ∧
      (stepped (full.present (.command 0x20100000#32 0))).respPort = some ⟨false, 5, false, []⟩) :=
  ⟨⟨by decide, rfl, by decide⟩, by decide, rfl, by decide⟩

/-- A set bit and a command that completes; a reset. -/
theorem witness_FsrIsSticky :
    (step { free.present (.command 0x20100000#32 0) with fsr := 0b000100#6 } =
        .next (stepped { free.present (.command 0x20100000#32 0) with fsr := 0b000100#6 }) ∧
      State.presented { free.present (.command 0x20100000#32 0) with fsr := 0b000100#6 } = some (.command 0x20100000#32 0) ∧
      (0b000100#6).getLsbD 2 = true ∧
      (stepped { free.present (.command 0x20100000#32 0) with fsr := 0b000100#6 }).respPort = some ⟨true, 0, false, []⟩) ∧
    (step (faulted.present .reset) = .next (stepped (faulted.present .reset)) ∧
      (faulted.present .reset).presented = some .reset) :=
  ⟨⟨rfl, by decide, by decide, by decide⟩, rfl, by decide⟩

theorem witness_OnlyComparesWriteT :
    (free.present (.command 0x50010000#32 0)).presented = some (.command 0x50010000#32 0) ∧
    step (free.present (.command 0x50010000#32 0)) = .next (stepped (free.present (.command 0x50010000#32 0))) ∧
    opcodeOf 0x50010000#32 ∉ [0x30#8, 0x31#8, 0x32#8, 0x33#8, 0x34#8, 0x35#8] :=
  ⟨by decide, rfl, by decide⟩

/-- The last clause: a compare that completes. -/
theorem witness_NoCommandReadsTOrFsr :
    (Instr.ceq 1 2).isCompare = true ∧
    ((nextOf (exec (.ceq 1 2) free)).bind (·.respPort)).map (·.ok) = some true := by decide

/-- FROMINT of the minimum plus one, SHR by the length, REND10 of exactly `ACCW` bits, and a command with no condition;
both sides of `MAXBITS`. -/
theorem witness_NothingElseFaults :
    full.hasRegs (Instr.fromint 7 0x80000001).regs = true ∧ sint 32 0x80000001 ≠ -(2 ^ 31 : Int) ∧
    full.hasRegs (Instr.shr 7 1 3).regs = true ∧ uint 32 3 ≤ (full.readReg 1).mag.length ∧
    full.hasRegs (Instr.rend10 1).regs = true ∧ (∀ k ∈ full.cfg.accw, (full.readReg 1).mag.length ≤ k) ∧
    full.hasRegs (Instr.inc 1).regs = true ∧ full.cfg.maxbits ≠ none ∧ (Instr.rend10 1).dest = none ∧
    free.hasRegs (Instr.shl 1 1 9).regs = true ∧ free.cfg.maxbits = none := by decide

/-- A write and a fault. -/
theorem witness_ValueCommandFrame :
    ((Instr.dec 1).dest = some 1 ∧ exec (.dec 1) full = .next ((full.writeReg 1 (plus [1, 1, 0])).complete [])) ∧
    ((Instr.inc 1).dest = some 1 ∧ exec (.inc 1) full = .next (full.raise .capacity)) :=
  ⟨⟨rfl, rfl⟩, rfl, rfl⟩

theorem witness_CompareFrame :
    (Instr.clt 2 1).isCompare = true ∧ exec (.clt 2 1) full = .next ((full.writeT true).complete []) ∧
    full.hasRegs (Instr.clt 2 1).regs = true := ⟨rfl, rfl, by decide⟩

/-- REND10 completing, REND2 on an absent register. -/
theorem witness_RenderFrame :
    exec (.rend10 2) full = .next (full.complete [0x2D, 0x33]) ∧ exec (.rend2 8) full = .next (full.raise .illegal) :=
  ⟨rfl, rfl⟩

theorem witness_AbsentRegisterIsIllegal :
    full.hasRegs (Instr.add 8 1 2).regs = false ∧ full.hasRegs (Instr.ceq 7 8).regs = false := by decide

/-- The length clause on both sides of 1. -/
theorem witness_CanonicalRepresentation :
    (plus [0]).canonical ∧ (plus [1]).canonical ∧ uval (plus [1]).mag ≤ 1 ∧ (minus [1, 0]).canonical ∧
    ¬ uval (minus [1, 0]).mag ≤ 1 ∧ ¬ (minus [0]).canonical ∧ ¬ (plus [0, 1]).canonical := by decide

theorem witness_NormalizerLaws :
    (plus [0, 0, 1]).mag ≠ [] ∧ normMag (plus [0, 0, 1]).mag ≠ [false] ∧ CanonicalMag (plus [1, 0]).mag := by decide

theorem witness_CanonLaws : (plus [0, 0]).mag ≠ [] := by decide

/-- The narrowest width and both ends of the range at width 32. -/
theorem witness_ExtractorLaws :
    (2 ≤ 2 ∧ -(2 ^ (2 - 1) : Int) < -1 ∧ (1 : Int) ≤ 2 ^ (2 - 1) - 1) ∧
    (2 ≤ 32 ∧ -(2 ^ (32 - 1) : Int) < -2147483647 ∧ (2147483647 : Int) ≤ 2 ^ (32 - 1) - 1) := by decide

theorem witness_ComparatorLaw : CanonicalMag (plus [0]).mag ∧ CanonicalMag (plus [1, 0, 1]).mag := by decide

/-- No padding at all, and some. -/
theorem witness_PaddingAndComplementLaws :
    (plus [1, 1, 1, 1]).mag.length ≤ 4 ∧ (plus [1, 1]).mag.length ≤ 5 := by decide

theorem witness_RippleCarryLaw : (plus [1, 1, 1]).mag.length = (plus [0, 0, 1]).mag.length := by decide

theorem witness_SignResolutionLaw : (plus [1, 0, 1]).canonical ∧ (minus [1, 0, 1]).canonical := by decide

/-- Canonical operands of opposite signs; equal signs with leading zeros, an all-zero operand among them. -/
theorem witness_AdderIsExact :
    ((plus [1, 0, 1]).canonical ∧ (minus [1, 0, 1]).canonical) ∧
    ((plus [1, 1]).sign = (plus [0, 0, 0]).sign ∧ (plus [1, 1]).mag ≠ [] ∧ (plus [0, 0, 0]).mag ≠ []) := by decide

theorem witness_TopGuardBitIsZero : (minus [1, 1, 1]).canonical ∧ (minus [1]).canonical := by decide

/-- The last bit dropped is the last there is. -/
theorem witness_ShiftPrimitiveLaws : 3 ≤ (plus [1, 0, 1]).mag.length := by decide

theorem witness_MultiplierIsExact :
    (minus [1, 0, 1]).canonical ∧ (plus [0]).canonical ∧ (plus [1, 1]).canonical := by decide

theorem witness_AdditionLaws : (minus [1, 0, 1]).canonical ∧ (plus [0]).canonical ∧ (plus [1, 1]).canonical := by decide

theorem witness_ZeroCommand : full.cfg.wf ∧ full.hasRegs [7] = true := by decide

/-- The widest port value, the minimum, a value too long for `MAXBITS = 3` and the longest that fits. -/
theorem witness_FromintCommand :
    full.cfg.wf ∧ full.hasRegs [7] = true ∧ 0xFFFFFFFF < 2 ^ full.cfg.natw ∧
    sint full.cfg.natw 0x80000000 = -(2 ^ (full.cfg.natw - 1) : Int) ∧
    (sint full.cfg.natw 8 ≠ -(2 ^ (full.cfg.natw - 1) : Int) ∧ tooLong full.cfg (magx (sint full.cfg.natw 8)) = true) ∧
    (sint full.cfg.natw 7 ≠ -(2 ^ (full.cfg.natw - 1) : Int) ∧ tooLong full.cfg (magx (sint full.cfg.natw 7)) = false) := by
  decide

/-- 7 + -3 fits in three bits, 7 + 1 does not. -/
theorem witness_AddCommand :
    full.Inv ∧ full.hasRegs [4, 1, 2] = true ∧
    tooLong full.cfg (magx ((full.readReg 1).val + (full.readReg 2).val)) = false ∧
    full.hasRegs [7, 1, 3] = true ∧ tooLong full.cfg (magx ((full.readReg 1).val + (full.readReg 3).val)) = true := by
  decide

/-- 7 - 1 fits, 7 - -3 does not. -/
theorem witness_SubCommand :
    full.Inv ∧ full.hasRegs [4, 1, 3] = true ∧
    tooLong full.cfg (magx ((full.readReg 1).val - (full.readReg 3).val)) = false ∧
    full.hasRegs [7, 1, 2] = true ∧ tooLong full.cfg (magx ((full.readReg 1).val - (full.readReg 2).val)) = true := by
  decide

/-- 7 * 1 fits, 7 * -3 does not. -/
theorem witness_MulCommand :
    full.Inv ∧ full.hasRegs [4, 1, 3] = true ∧
    tooLong full.cfg (magx ((full.readReg 1).val * (full.readReg 3).val)) = false ∧
    full.hasRegs [7, 1, 2] = true ∧ tooLong full.cfg (magx ((full.readReg 1).val * (full.readReg 2).val)) = true := by
  decide

/-- A legal state whose `V4` is the smallest value of three bits, -7. -/
def lowest : State := machine small [(4, minus [1, 1, 1])]

/-- INC of 7 and DEC of -7 do not fit, DEC of 7 and INC of -7 do. -/
theorem witness_IncDecCommands :
    full.Inv ∧ full.hasRegs [1] = true ∧ tooLong full.cfg (magx ((full.readReg 1).val + 1)) = true ∧
    tooLong full.cfg (magx ((full.readReg 1).val - 1)) = false ∧
    lowest.Inv ∧ lowest.hasRegs [4] = true ∧ tooLong lowest.cfg (magx ((lowest.readReg 4).val + 1)) = false ∧
    tooLong lowest.cfg (magx ((lowest.readReg 4).val - 1)) = true := by decide

theorem witness_NegMovAbsCommands : full.Inv ∧ full.hasRegs [7, 2] = true := by decide

/-- Both arms: a source that is not negative and one that is. -/
theorem witness_NotCommand :
    full.Inv ∧ full.hasRegs [7, 1] = true ∧ 0 ≤ (full.readReg 1).val ∧ full.hasRegs [7, 2] = true ∧
    ¬ 0 ≤ (full.readReg 2).val := by decide

theorem witness_NotIsNoInvolution : (plus [0]).canonical ∧ (minus [1]).canonical ∧ (plus [1]).canonical := by decide

theorem witness_CompareCommands : full.Inv ∧ full.hasRegs [7, 2] = true := by decide

theorem witness_OrderingIsTotal : (minus [1, 0, 1]).canonical ∧ (minus [1, 1, 0]).canonical := by decide

theorem witness_BitwiseCommands : full.Inv ∧ full.hasRegs [7, 1, 2] = true := by decide

/-- The largest count the port carries meets the range; `V2 << 1` fits in three bits and `V2 << 2` does not. -/
theorem witness_ShlCommand :
    full.Inv ∧ full.hasRegs [7, 2] = true ∧ 0xFFFFFFFF < 2 ^ full.cfg.natw ∧
    tooLong full.cfg (magx ((full.readReg 2).val * 2 ^ 1)) = false ∧
    tooLong full.cfg (magx ((full.readReg 2).val * 2 ^ 2)) = true := by decide

/-- The length, one less, one more. -/
theorem witness_ShrCommand :
    full.Inv ∧ full.hasRegs [7, 1] = true ∧ 4 < 2 ^ full.cfg.natw ∧ (full.readReg 1).mag.length < 4 ∧
    3 = (full.readReg 1).mag.length ∧ 2 ≤ (full.readReg 1).mag.length := by decide

theorem witness_ShiftInverse :
    (minus [1]).canonical ∧ minus [1] ≠ BigVal.zero ∧ (plus [0]).canonical ∧ plus [0] = BigVal.zero ∧ 1 ≤ 1 ∧ 2 ≤ 2 := by
  decide

/-- A legal state with a magnitude one bit longer than `ACCW = 64`. -/
def wide : State := machine std [(1, plus (1 :: List.replicate 64 0)), (2, plus (ones 64))]

/-- 65 bits, 64 bits, and a renderer without a bound. -/
theorem witness_Rend10Command :
    wide.Inv ∧ wide.hasRegs [1] = true ∧ (∃ k ∈ wide.cfg.accw, k < (wide.readReg 1).mag.length) ∧
    wide.hasRegs [2] = true ∧ (∀ k ∈ wide.cfg.accw, (wide.readReg 2).mag.length ≤ k) := by decide

theorem witness_Rend2Command : wide.Inv ∧ wide.hasRegs [1] = true := by decide

/-- `ACCW` exactly `NATW - 1`, and the minimum plus one. -/
theorem witness_DecimalRoundTrip :
    State.Inv (machine ⟨32, 16, none, some 31⟩ []) ∧ State.hasRegs (machine ⟨32, 16, none, some 31⟩ []) [15] = true ∧
    (∀ k ∈ (some 31 : Option Nat), 32 - 1 ≤ k) ∧ sint 32 0x80000001 ≠ -(2 ^ (32 - 1) : Int) := by decide

theorem witness_PostfixForms :
    full.Inv ∧ full.hasRegs [7, 3] = true ∧ (7 : Reg) ≠ 3 ∧ tooLong full.cfg (magx ((full.readReg 3).val + 1)) = false ∧
    tooLong full.cfg (magx ((full.readReg 3).val - 1)) = false := by decide

end Sys2Proof.Tests
end

section
/-! The family of 10_state.md: the state after reset, and the one response every presented command word gets. -/

namespace Sys2Proof

/-- The command a row builds has that row's opcode, whatever its operands (30_encoding.md R44). -/
theorem Row.opcode_build {r : Row} (hr : r ∈ opcodeTable) (rd a b : Reg) (n : Nat) :
    (r.build rd a b n).opcode = r.opcode := by
  have rows : opcodeTable.Forall fun r => (r.build rd a b n).opcode = r.opcode := by
    simp [opcodeTable, rowsArith, rowsUnaryCompare, rowsBitShiftRender, Instr.opcode]
  exact List.forall_iff_forall_mem.1 rows r hr

/-- A word decodes only to a command of the word's own opcode. -/
theorem opcode_of_decode {c : Config} {w : Cmd} {imm : Nat} {i : Instr} (h : decode c w imm = .ok i) :
    i.opcode = opcodeOf w := by
  rcases decode_cases c w imm with ⟨_, he⟩ | ⟨r, hr, ho, ⟨_, he⟩ | ⟨_, _, he⟩ | ⟨_, _, hok⟩⟩
  · simp [he] at h
  · simp [he] at h
  · simp [he] at h
  · obtain rfl := Except.ok.inj (hok.symm.trans h)
    rw [Row.opcode_build hr, ho]

end Sys2Proof

namespace Sys2Proof.Machine

/-! ### Reset -/

/-- Where every register holds `+[0]`, every index reads `+[0]`. -/
theorem State.readReg_of_regs_zero {s : State} {n : Nat} (h : s.regs = List.replicate n BigVal.zero) (r : Reg) :
    s.readReg r = BigVal.zero := by
  rw [State.readReg, h, List.getD_eq_getElem?_getD, List.getElem?_getD_replicate_default_eq]

/-- Settles O8: the reset register file is `NREG` copies of `+[0]`, and no response has been given. -/
theorem resetState : Obligations.ResetState := by
  intro c program
  exact ⟨by simp, fun r _ => State.readReg_of_regs_zero (State.resetWith_regs c program) r, rfl, rfl, rfl⟩

/-! ### The response -/

/-- The text a result puts into the response when its command completes: none for a value or a flag
(10_state.md R19, R24). A fault does not complete. -/
def Result.answerText : Result → Option Text
  | .value _ _ | .flag _ => some []
  | .text x => some x
  | .fault _ => none

/-- The end of a command raises a fault, or completes with its result's text after writing at most a register or `T`. -/
theorem State.finish_raise_or_complete (s : State) (r : Result) :
    (∃ c, s.finish r = s.raise c) ∨
    ∃ (u : State) (x : Text), r.answerText = some x ∧ u.responses = s.responses ∧ s.finish r = u.complete x := by
  rcases s.finish_cases r with ⟨c, hf, _⟩ | ⟨rd, v, rfl, _, hf⟩ | ⟨b, rfl, hf⟩ | ⟨x, rfl, hf⟩
  · exact .inl ⟨c, hf⟩
  · exact .inr ⟨s.writeReg rd v, [], rfl, rfl, hf⟩
  · exact .inr ⟨s.writeT b, [], rfl, rfl, hf⟩
  · exact .inr ⟨s, x, rfl, rfl, hf⟩

/-- A step on a presented word raises a fault, or the word decodes to a command that completes with its result's text. -/
theorem step_raise_or_complete {s s' : State} {w : Cmd} {imm : Nat} (hp : s.presented = some (.command w imm))
    (h : step s = .next s') :
    (∃ c, s' = s.raise c) ∨
    ∃ (i : Instr) (u : State) (x : Text), decode s.cfg w imm = .ok i ∧ (resultOf i s).answerText = some x ∧
      u.responses = s.responses ∧ s' = u.complete x := by
  rcases step_cases h with ⟨hr, _⟩ | ⟨w', imm', hp', hstep⟩
  · simp [hp] at hr
  · obtain ⟨rfl, rfl⟩ : w = w' ∧ imm = imm' := by simpa [hp] using hp'
    rcases hstep with ⟨_, _, rfl⟩ | ⟨i, hi, hexec⟩
    · exact .inl ⟨_, rfl⟩
    · rcases exec_cases hexec with ⟨_, rfl⟩ | ⟨_, rfl⟩
      · exact .inl ⟨_, rfl⟩
      · exact (s.finish_raise_or_complete (resultOf i s)).imp_right
          fun ⟨u, x, hx, hu, hs⟩ => ⟨i, u, x, hi, hx, hu, hs⟩

/-- A rendering that completes answers the text its rule yields. -/
theorem answerText_textOrFault {y : Except Cause Text} {x : Text} :
    (textOrFault y).answerText = some x ↔ y = .ok x := by
  cases y <;> simp [textOrFault, Result.answerText]

/-- Only the opcodes of REND10 and REND2 answer with a text (10_state.md R19). -/
theorem answerText_eq_nil {i : Instr} {s : State} {x : Text} (hop : i.opcode ∉ [0x50#8, 0x51#8])
    (h : (resultOf i s).answerText = some x) : x = [] := by
  rcases resultOf_kind i s with ⟨_, _, _, ⟨v, hr⟩ | ⟨c, hr⟩⟩ | ⟨_, _, b, hr⟩ | ⟨_, _, ⟨a, rfl | rfl⟩, _⟩
  · simpa [hr, Result.answerText] using h.symm
  · simp [hr, Result.answerText] at h
  · simpa [hr, Result.answerText] using h.symm
  · simp [Instr.opcode] at hop
  · simp [Instr.opcode] at hop

/-- The cause field of a fault is a code 1 to 5 (60_exceptions.md R150): three bits hold it. -/
theorem Cause.code_response (c : Cause) :
    1 ≤ (BitVec.ofNat 3 c.code).toNat ∧ (BitVec.ofNat 3 c.code).toNat ≤ 5 := by
  cases c <;> decide

/-- Settles O15: the step raises a fault, whose response has a code and no text, or completes with the text of the
decoded command's result, which only the renderers fill. -/
theorem oneResponsePerCommand : Obligations.OneResponsePerCommand := by
  intro s w imm hp
  obtain ⟨s', hs⟩ := step_next hp
  rcases step_raise_or_complete hp hs with ⟨c, rfl⟩ | ⟨i, u, x, hi, hx, hu, rfl⟩
  · refine ⟨_, _, hs, s.raise_responses c, s.respPort_raise c, rfl, nofun, ?_, fun _ => rfl, nofun, nofun⟩
    obtain ⟨hlow, hhigh⟩ := c.code_response
    exact fun _ => ⟨hlow, hhigh, rfl⟩
  · refine ⟨_, _, hs, by rw [u.complete_responses, hu], u.respPort_complete x, rfl, fun _ => rfl, nofun, ?_, ?_, ?_⟩
    · intro hop
      rw [← opcode_of_decode hi] at hop
      exact answerText_eq_nil hop hx
    · intro a ha _
      obtain rfl := Except.ok.inj (hi.symm.trans ha)
      exact answerText_textOrFault.1 hx
    · intro a ha _
      obtain rfl := Except.ok.inj (hi.symm.trans ha)
      exact (Option.some.inj hx).symm

end Sys2Proof.Machine
end

section
/-! The family of 30_encoding.md: the decoding procedure over the rows of the opcode table, and the illegal words. -/

namespace Sys2Proof

/-! ### The opcode table -/

/-- A row of the opcode map as opcode_table.json writes it: mnemonic, `match`, `mask` (30_encoding.md R44). -/
def Row.toTable (r : Row) : String × Cmd × Cmd :=
  ((r.build 0 0 0 0).mnemonic, r.matchWord, r.format.mask)

/-- The rows of opcode_table.json are those of the opcode map. -/
theorem tableRows_eq_map : tableRows = opcodeTable.map Row.toTable := by decide

/-- The rows of opcode_table.json, each as the row of an entry of the opcode map. -/
theorem mem_tableRows {row : String × Cmd × Cmd} : row ∈ tableRows ↔ ∃ r ∈ opcodeTable, r.toTable = row := by
  rw [tableRows_eq_map, List.mem_map]

/-- The opcode alone selects the row (30_encoding.md R45). -/
theorem Row.eq_of_opcode_eq {r r' : Row} (hr : r ∈ opcodeTable) (hr' : r' ∈ opcodeTable)
    (h : r.opcode = r'.opcode) : r = r' :=
  Option.some.inj ((find_row hr _ h).symm.trans (find_row hr' _ rfl))

/-- What holds of some row with an opcode holds of the one row with it. -/
theorem exists_row_iff {r : Row} (hr : r ∈ opcodeTable) {op : BitVec 8} (ho : r.opcode = op) (P : Row → Prop) :
    (∃ x ∈ opcodeTable, x.opcode = op ∧ P x) ↔ P r := by
  constructor
  · rintro ⟨x, hx, hxo, hP⟩
    rwa [Row.eq_of_opcode_eq hr hx (ho.trans hxo.symm)]
  · exact fun hP => ⟨r, hr, ho, hP⟩

/-- The operands of a row's command do not change its mnemonic. -/
theorem Row.mnemonic_build (rd a b : Reg) (n : Nat) :
    ∀ r ∈ opcodeTable, (r.build rd a b n).mnemonic = r.toTable.1 := by
  simp [opcodeTable, rowsArith, rowsUnaryCompare, rowsBitShiftRender, Instr.mnemonic, Row.toTable]

/-- The word of a row's command holds the fields the format uses, over zeros (30_encoding.md R46, R49). -/
theorem Row.encode_build (rd a b : Reg) (n : Nat) :
    ∀ r ∈ opcodeTable, encode (r.build rd a b n) = assemble r.opcode (if r.format.usesRd then rd else 0)
      (if r.format.usesRs1 then a else 0) (if r.format.usesRs2 then b else 0) := by
  simp [opcodeTable, rowsArith, rowsUnaryCompare, rowsBitShiftRender, encode, Instr.opcode, Format.usesRd,
    Format.usesRs1, Format.usesRs2]

/-- The registers of a row's command exist when every field the format uses is below `NREG` (30_encoding.md R45
step 3). -/
theorem Row.regsExist_build (nreg : Nat) (rd a b : Reg) (n : Nat) :
    ∀ r ∈ opcodeTable, (r.build rd a b n).regsExist nreg = true ↔
      ((r.format.usesRd = true → rd.toNat < nreg) ∧ (r.format.usesRs1 = true → a.toNat < nreg) ∧
        (r.format.usesRs2 = true → b.toNat < nreg)) := by
  simp [opcodeTable, rowsArith, rowsUnaryCompare, rowsBitShiftRender, Instr.regsExist, Instr.regs, Format.usesRd,
    Format.usesRs1, Format.usesRs2]

/-! ### The opcode byte -/

/-- An opcode over zeros, the form of every `match`, has that opcode. -/
@[simp] theorem opcodeOf_shiftLeft (op : BitVec 8) : opcodeOf (op.setWidth 32 <<< 24) = op := by
  have h : op.setWidth 32 <<< 24 = assemble op 0 0 0 := by simp [assemble]
  rw [h, opcodeOf_assemble]

@[simp] theorem Row.opcodeOf_matchWord (r : Row) : opcodeOf r.matchWord = r.opcode := opcodeOf_shiftLeft r.opcode

/-- Every mask keeps the whole opcode field (30_encoding.md R42). -/
@[simp] theorem opcodeOf_and_mask (w : Cmd) (f : Format) : opcodeOf (w &&& f.mask) = opcodeOf w := by
  have all : ∀ x : BitVec 8, x &&& 255#8 = x := fun x => BitVec.and_allOnes
  cases f <;> simp [opcodeOf, Format.mask, BitVec.extractLsb'_and, all]

/-- The opcode byte of a word is its opcode over zeros. -/
theorem and_opcodeByte (w : Cmd) : w &&& 0xFF000000#32 = (opcodeOf w).setWidth 32 <<< 24 := by
  ext i hi
  interval_cases i <;> simp [opcodeOf]

/-- The opcode byte of a word is a row's `match` exactly when the word has the row's opcode (30_encoding.md R45
step 1). -/
theorem and_opcodeByte_eq_matchWord_iff (w : Cmd) (r : Row) :
    w &&& 0xFF000000#32 = r.matchWord ↔ r.opcode = opcodeOf w := by
  rw [and_opcodeByte]
  constructor
  · intro h
    rw [← r.opcodeOf_matchWord, ← h, opcodeOf_shiftLeft]
  · intro h
    rw [Row.matchWord, h]

/-- A word that matches a row has the row's opcode. -/
theorem opcode_eq_of_match {w : Cmd} {r : Row} (h : w &&& r.format.mask = r.matchWord) : r.opcode = opcodeOf w := by
  rw [← r.opcodeOf_matchWord, ← h, opcodeOf_and_mask]

/-! ### The decoding procedure -/

/-- Step 1 (30_encoding.md R45): a word of no row's opcode is illegal. -/
theorem decode_of_no_row {w : Cmd} (h : ∀ r ∈ opcodeTable, r.opcode ≠ opcodeOf w) (c : Config) (imm : Nat) :
    decode c w imm = .error .unassignedOpcode := by
  rcases decode_cases c w imm with ⟨_, he⟩ | ⟨r, hr, ho, _⟩
  · exact he
  · exact absurd ho (h r hr)

/-- A word that matches a row is the word of the command the row builds from the word's fields. -/
theorem encode_build_of_match {r : Row} (hr : r ∈ opcodeTable) {w : Cmd} (hm : w &&& r.format.mask = r.matchWord)
    (n : Nat) : encode (r.build (rdOf w) (rs1Of w) (rs2Of w) n) = w := by
  have ho := opcode_eq_of_match hm
  obtain ⟨hd, h1, h2, hlow⟩ := (matchWord_iff r w ho).1 hm
  have unused {u : Bool} {x : Reg} (hx : u = false → x = 0) : (if u then x else 0) = x := by
    cases u <;> simp [hx]
  rw [Row.encode_build _ _ _ _ r hr, unused hd, unused h1, unused h2, ho, assemble_fields w hlow]

/-- Settles O4: the row with the word's opcode decides, and it is the only row the word can match. -/
theorem decodingProcedure : Obligations.DecodingProcedure := by
  refine ⟨fun c w imm => ⟨fun h => ?_, fun row hrow hbyte => ?_⟩, fun w row hrow row' hrow' hm hm' => ?_⟩
  · refine decode_of_no_row (fun r hr ho => ?_) c imm
    exact h _ (mem_tableRows.2 ⟨r, hr, rfl⟩) ((and_opcodeByte_eq_matchWord_iff w r).2 ho)
  · obtain ⟨r, hr, rfl⟩ := mem_tableRows.1 hrow
    have ho := (and_opcodeByte_eq_matchWord_iff w r).1 hbyte
    rw [decode_of_row hr c w imm ho]
    refine ⟨fun hm => if_neg hm, fun hm => ?_⟩
    exact ⟨_, Row.mnemonic_build _ _ _ _ r hr, encode_build_of_match hr hm _, if_pos hm⟩
  · obtain ⟨r, hr, rfl⟩ := mem_tableRows.1 hrow
    obtain ⟨r', hr', rfl⟩ := mem_tableRows.1 hrow'
    rw [Row.eq_of_opcode_eq hr hr' ((opcode_eq_of_match hm).trans (opcode_eq_of_match hm').symm)]

/-! ### Illegal words -/

/-- A word of a row's opcode is illegal unless it meets the row's mask and its registers exist (30_encoding.md R45). -/
theorem decode_error_iff_of_row {r : Row} (hr : r ∈ opcodeTable) (c : Config) {w : Cmd} (imm : Nat)
    (ho : r.opcode = opcodeOf w) :
    (∃ e, decode c w imm = .error e) ↔ ¬ (w &&& r.format.mask = r.matchWord ∧
      (r.build (rdOf w) (rs1Of w) (rs2Of w) (sampleImm c imm)).regsExist c.nreg = true) := by
  rw [decode_of_row hr c w imm ho]
  split_ifs with hm hx
  · simp [hm, hx]
  · simp [hx]
  · simp [hm]

end Sys2Proof

namespace Sys2Proof.Machine

/-- An illegal word raises ILLEGAL, whatever the decoder's reason (60_exceptions.md R151). -/
theorem step_of_decode_error {s : State} {w : Cmd} {imm : Nat} {e : DecodeError}
    (hp : s.presented = some (.command w imm)) (he : decode s.cfg w imm = .error e) :
    step s = .next (s.raise .illegal) := by
  simp [step, hp, he, State.illegalWord]

/-- Settles O5: a word with an opcode of the table is illegal exactly when its one row rejects a field, and an illegal
word raises ILLEGAL. -/
theorem illegalWords : Obligations.IllegalWords := by
  refine ⟨fun c w imm => ?_, fun s w imm e hp he => ?_⟩
  · by_cases hop : ∀ r ∈ opcodeTable, r.opcode ≠ opcodeOf w
    · exact iff_of_true ⟨_, decode_of_no_row hop c imm⟩ (.inl hop)
    · obtain ⟨r, hr, ho⟩ : ∃ r ∈ opcodeTable, r.opcode = opcodeOf w := by simpa using hop
      rw [decode_error_iff_of_row hr c imm ho, matchWord_iff r w ho, Row.regsExist_build _ _ _ _ _ r hr,
        exists_row_iff hr ho]
      -- Left the conditions a legal word meets, negated; right the same conditions, each broken.
      simp only [hop, false_or, ne_eq, ← not_lt]
      tauto
  · exact ⟨_, step_of_decode_error hp he, rfl, rfl, rfl, rfl, rfl, rfl⟩

end Sys2Proof.Machine
end

section
/-! The family of 41_construct.md: a row's word decodes to the row's command, a value that fits is written, and ZERO. -/

namespace Sys2Proof

/-- The word of a row's opcode and operands, with zeros in the fields the format does not use, decodes to the row's
command when its registers exist (30_encoding.md R45, R49). -/
theorem decode_assemble {r : Row} (hr : r ∈ opcodeTable) (c : Config) {rd a b : Reg} (imm : Nat)
    (hd : r.format.usesRd = false → rd = 0) (h1 : r.format.usesRs1 = false → a = 0)
    (h2 : r.format.usesRs2 = false → b = 0)
    (hregs : (r.build rd a b (sampleImm c imm)).regsExist c.nreg = true) :
    decode c (assemble r.opcode rd a b) imm = .ok (r.build rd a b (sampleImm c imm)) := by
  have hmask : assemble r.opcode rd a b &&& r.format.mask = r.matchWord :=
    Laws.EncodingRow.masked _ _ _ _ _ hd h1 h2
  rw [decode_of_row hr c _ imm (opcodeOf_assemble ..).symm, if_pos hmask]
  simp [hregs]

end Sys2Proof

namespace Sys2Proof.Machine

/-- `MAXBITS` is at least 1, so a one-bit magnitude is never too long (00_scope.md R5; 60_exceptions.md R153). -/
theorem tooLong_of_length_le_one {c : Config} (hc : c.wf) {v : BigVal} (hv : v.mag.length ≤ 1) :
    tooLong c v = false := by
  obtain ⟨-, -, -, hmax, -⟩ := hc
  rw [Bool.eq_false_iff, ne_eq, tooLong_iff]
  rintro ⟨n, hn, hlong⟩
  have := hmax n hn
  omega

/-- A command whose registers exist and whose value fits writes that value and completes (10_state.md R24). -/
theorem exec_value {i : Instr} {s : State} {rd : Reg} {v : BigVal} (hregs : s.hasRegs i.regs = true)
    (hres : resultOf i s = .value rd v) (hfit : tooLong s.cfg v = false) :
    exec i s = .next ((s.writeReg rd v).complete []) := by
  rw [exec_eq_guarded, State.guarded_of_has hregs, hres, State.finish_value hfit]

/-- Settles O39: the word is that of the row of ZERO, and the one bit of `+[0]` fits every legal `MAXBITS`. -/
theorem zeroCommand : Obligations.ZeroCommand := by
  intro s rd hcfg hregs
  refine ⟨fun imm => ?_, exec_value hregs rfl (tooLong_of_length_le_one hcfg le_rfl)⟩
  have hrow : (⟨0x01#8, .r1, fun rd _ _ _ => .zero rd⟩ : Row) ∈ opcodeTable := List.mem_cons_self
  have hword : 0x01000000#32 ||| (rd.setWidth 32 <<< 20) = assemble 0x01#8 rd 0 0 := by simp [assemble]
  rw [hword]
  exact decode_assemble hrow s.cfg imm (by simp [Format.usesRd]) (fun _ => rfl) (fun _ => rfl) hregs

end Sys2Proof.Machine
end

section
/-! The datapath units the adder runs through (40_datapath_units.md R60 to R70): the one canonical representation of an
integer, the comparator, the complement, the ripple-carry adder, the sign of a sum, and ADDSM's exactness. -/

namespace Sys2Proof.Machine

/-! ### The one canonical magnitude of a number (R12, R62) -/

/-- A shorter canonical magnitude is the smaller number (R63). -/
theorem CanonicalMag.uval_lt_of_length_lt {x y : Bits} (hx : CanonicalMag x) (hy : CanonicalMag y)
    (hlen : x.length < y.length) : uval x < uval y := by
  have hxpos : 0 < x.length := List.length_pos_of_ne_nil hx.ne_nil
  have hhead : y.head? = some true := by
    rcases hy with rfl | h
    · rw [List.length_singleton] at hlen
      omega
    · exact h
  calc uval x < 2 ^ x.length := uval_lt x
    _ ≤ 2 ^ (y.length - 1) := Nat.pow_le_pow_right (by omega) (by omega)
    _ ≤ uval y := le_uval_of_head hhead

/-- Canonical magnitudes of one number are the same vector. -/
theorem CanonicalMag.eq_of_uval_eq {x y : Bits} (hx : CanonicalMag x) (hy : CanonicalMag y)
    (h : uval x = uval y) : x = y := by
  rcases Nat.lt_trichotomy x.length y.length with hlt | heq | hgt
  · exact absurd h (hx.uval_lt_of_length_lt hy hlt).ne
  · exact uval_inj heq h
  · exact absurd h (hy.uval_lt_of_length_lt hx hgt).ne'

/-- MAGX's loop collects the binary digits of `m` in front of what it has. -/
theorem uval_divideByTwo {fuel m : Nat} (h : m ≤ fuel) (acc : Bits) :
    uval (divideByTwo fuel m acc) = m * 2 ^ acc.length + uval acc := by
  induction fuel generalizing m acc with
  | zero => simp [divideByTwo, Nat.le_zero.1 h]
  | succ fuel ih =>
    by_cases hm : m = 0
    · simp [divideByTwo, hm]
    · have hbit : bitNat (decide (m % 2 = 1)) = m % 2 := by
        rcases Nat.mod_two_eq_zero_or_one m with h2 | h2 <;> simp [h2]
      have hsplit : m / 2 * 2 + m % 2 = m := Nat.div_add_mod' m 2
      calc uval (divideByTwo (fuel + 1) m acc)
          = m / 2 * 2 ^ (acc.length + 1) + (m % 2 * 2 ^ acc.length + uval acc) := by
            rw [divideByTwo, if_neg hm, ih (by omega), uval_cons, hbit, List.length_cons]
        _ = (m / 2 * 2 + m % 2) * 2 ^ acc.length + uval acc := by ring
        _ = m * 2 ^ acc.length + uval acc := by rw [hsplit]

/-- MAGX's loop has nothing left to collect from 0. -/
@[simp] theorem divideByTwo_zero (fuel : Nat) (acc : Bits) : divideByTwo fuel 0 acc = acc := by
  cases fuel <;> simp [divideByTwo]

/-- The last digit MAGX's loop collects, the most significant one, is a 1. -/
theorem head?_divideByTwo {fuel m : Nat} (h : m ≤ fuel) (hm : 0 < m) (acc : Bits) :
    (divideByTwo fuel m acc).head? = some true := by
  induction fuel generalizing m acc with
  | zero => omega
  | succ fuel ih =>
    rw [divideByTwo, if_neg hm.ne']
    by_cases h2 : m / 2 = 0
    · have hone : m = 1 := by omega
      simp [hone]
    · exact ih (by omega) (by omega) _

/-- The magnitude of a positive number is what MAGX's loop collects. -/
theorem magOfNat_of_pos {m : Nat} (hm : 0 < m) : magOfNat m = divideByTwo m m [] := by
  have hne : divideByTwo m m [] ≠ [] := by
    intro h
    simpa [h] using head?_divideByTwo le_rfl hm []
  rw [magOfNat, if_neg hne]

/-- The magnitude MAGX builds is canonical (R62). -/
theorem canonicalMag_magOfNat (m : Nat) : CanonicalMag (magOfNat m) := by
  rcases Nat.eq_zero_or_pos m with rfl | hm
  · exact .inl rfl
  · exact .inr (magOfNat_of_pos hm ▸ head?_divideByTwo le_rfl hm [])

/-- The magnitude MAGX builds denotes its number (R62). -/
@[simp] theorem uval_magOfNat (m : Nat) : uval (magOfNat m) = m := by
  rcases Nat.eq_zero_or_pos m with rfl | hm
  · rfl
  · simp [magOfNat_of_pos hm, uval_divideByTwo le_rfl]

/-- MAGX gives back a canonical magnitude from its number. -/
theorem CanonicalMag.magOfNat_uval {x : Bits} (hx : CanonicalMag x) : magOfNat (uval x) = x :=
  (canonicalMag_magOfNat _).eq_of_uval_eq hx (uval_magOfNat _)

/-! ### The integer a value denotes (R12) -/

theorem val_nonneg {v : BigVal} (h : v.sign = false) : v.val = uval v.mag := by simp [BigVal.val, h]

theorem val_negative {v : BigVal} (h : v.sign = true) : v.val = -uval v.mag := by simp [BigVal.val, h]

@[simp] theorem val_mk_false (x : Bits) : BigVal.val ⟨false, x⟩ = uval x := val_nonneg rfl

@[simp] theorem val_mk_true (x : Bits) : BigVal.val ⟨true, x⟩ = -uval x := val_negative rfl

theorem natAbs_val (v : BigVal) : v.val.natAbs = uval v.mag := by
  cases h : v.sign
  · simp [val_nonneg h]
  · simp [val_negative h]

/-- A negative canonical value is not zero (R11). -/
theorem uval_pos_of_canonical {v : BigVal} (hv : v.canonical) (hs : v.sign = true) : 0 < uval v.mag := by
  obtain ⟨hzero | hhead, hsign⟩ := hv
  · simp [hsign hzero] at hs
  · exact (Nat.two_pow_pos _).trans_le (le_uval_of_head hhead)

/-- The sign of a canonical value is the sign of its integer. -/
theorem val_neg_iff {v : BigVal} (hv : v.canonical) : v.val < 0 ↔ v.sign = true := by
  cases hs : v.sign
  · simp [val_nonneg hs]
  · simpa [val_negative hs] using uval_pos_of_canonical hv hs

/-- A canonical value is the representation MAGX gives of its integer (R12). -/
theorem magx_val {v : BigVal} (hv : v.canonical) : magx v.val = v := by
  rw [magx, natAbs_val, hv.1.magOfNat_uval]
  simp [val_neg_iff hv]

/-! ### The normalizer (R60, R61) -/

@[simp] theorem uval_normMag (x : Bits) : uval (normMag x) = uval x := by
  fun_induction normMag x with
  | case1 => rfl
  | case2 => rfl
  | case3 => rfl
  | case4 b x ih => simpa using ih

theorem canonicalMag_normMag (x : Bits) : CanonicalMag (normMag x) := by
  fun_induction normMag x with
  | case1 => exact .inl rfl
  | case2 b => cases b <;> simp [CanonicalMag]
  | case3 b x => exact .inr rfl
  | case4 b x ih => exact ih

/-- CANON's output is canonical (R61). -/
theorem canonical_canon (s : Bit) (x : Bits) : (canon s x).canonical := by
  unfold canon
  split
  · exact ⟨.inl rfl, fun _ => rfl⟩
  · rename_i hne
    exact ⟨canonicalMag_normMag x, fun h => absurd h hne⟩

/-- CANON keeps the integer its sign and vector denote (R61). -/
theorem val_canon (s : Bit) (x : Bits) : (canon s x).val = BigVal.val ⟨s, x⟩ := by
  unfold canon
  split
  · rename_i hzero
    have hx : uval x = 0 := by rw [← uval_normMag, hzero]; rfl
    simp [BigVal.val, hx]
  · simp [BigVal.val]

/-- CANON gives the one canonical representation of the integer its sign and vector denote. -/
theorem canon_eq_magx (s : Bit) (x : Bits) : canon s x = magx (BigVal.val ⟨s, x⟩) := by
  rw [← val_canon, magx_val (canonical_canon s x)]

/-! ### The comparator (R63) -/

/-- Vectors of one length compare as their numbers: the first difference outweighs all that follows it. -/
theorem scanBits_eq_compare {x y : Bits} (hlen : x.length = y.length) :
    scanBits x y = compare (uval x) (uval y) := by
  induction x generalizing y with
  | nil =>
    obtain rfl := List.length_eq_zero_iff.1 hlen.symm
    rfl
  | cons a x ih =>
    obtain ⟨b, y, rfl⟩ := List.exists_cons_of_length_eq_add_one hlen.symm
    have htail : x.length = y.length := by simpa using hlen
    have hx := uval_lt x
    have hy := uval_lt y
    rw [scanBits, ih htail, uval_cons, uval_cons, htail]
    rw [htail] at hx
    split_ifs with hab ha
    · simp only [hab, Nat.compare_eq_ite_lt, Nat.add_lt_add_iff_left]
    · obtain rfl : b = true := by simpa [ha] using hab
      exact (compare_lt_iff_lt.2 (by simp [ha]; omega)).symm
    · obtain ⟨rfl, rfl⟩ : a = true ∧ b = false := by simpa [ha] using hab
      exact (compare_gt_iff_gt.2 (by simp; omega)).symm

/-- MCMP compares canonical magnitudes as their numbers (R63). -/
theorem mcmp_eq_compare {x y : Bits} (hx : CanonicalMag x) (hy : CanonicalMag y) :
    mcmp x y = compare (uval x) (uval y) := by
  unfold mcmp
  split_ifs with hlt hgt
  · exact (compare_lt_iff_lt.2 (hx.uval_lt_of_length_lt hy hlt)).symm
  · exact (compare_gt_iff_gt.2 (hy.uval_lt_of_length_lt hx hgt)).symm
  · exact scanBits_eq_compare (by omega)

/-! ### Padding and complement (R64 to R66) -/

theorem length_padw {x : Bits} {w : Nat} (h : x.length ≤ w) : (padw x w).length = w := by
  simp [padw, h]

@[simp] theorem uval_padw (x : Bits) (w : Nat) : uval (padw x w) = uval x := by
  simp [padw, uval_append]

/-- A vector and its complement add up to all ones (R65). -/
theorem uval_notw_add (x : Bits) : uval (notw x) + uval x + 1 = 2 ^ x.length := by
  induction x with
  | nil => rfl
  | cons b x ih =>
    have hlen : (notw x).length = x.length := by simp [notw]
    have hcons : notw (b :: x) = (!b) :: notw x := rfl
    rw [hcons, uval_cons, uval_cons, hlen, List.length_cons, Nat.pow_succ]
    cases b <;> simp <;> omega

@[simp] theorem length_tcw (x : Bits) : (tcw x).length = x.length := by simp [tcw]

/-- TCW negates modulo the width's power of two (R66). -/
theorem uval_tcw_modEq (x : Bits) : (uval (tcw x) : ℤ) ≡ -uval x [ZMOD 2 ^ x.length] := by
  have hnot : (uval (notw x) : ℤ) + 1 = 2 ^ x.length + -uval x := by
    have := uval_notw_add x
    zify at this
    omega
  rw [tcw, uval_bv, Nat.mod_mod]
  push_cast
  rw [hnot]
  exact (Int.mod_modEq _ _).trans (Int.modulus_add_modEq_iff.2 rfl)

/-! ### The ripple-carry adder (R67) -/

theorem length_rca {x y : Bits} (h : x.length = y.length) : (rca x y).1.length = x.length := by
  induction x generalizing y with
  | nil => simp [rca]
  | cons a x ih =>
    obtain ⟨b, y, rfl⟩ := List.exists_cons_of_length_eq_add_one h.symm
    simp [rca, ih (by simpa using h)]

/-- One position of the adder: its sum bit and its carry are the two binary digits of the three bits' sum. -/
theorem fullAdder_digits (a b c : Bit) :
    bitNat (decide ((bitNat a + bitNat b + bitNat c) % 2 = 1)) +
      2 * bitNat (decide ((bitNat a + bitNat b + bitNat c) / 2 = 1)) = bitNat a + bitNat b + bitNat c := by
  revert a b c
  decide

/-- The sum bits and the carry out are the sum (R67). -/
theorem uval_rca {x y : Bits} (h : x.length = y.length) :
    uval (rca x y).1 + 2 ^ x.length * bitNat (rca x y).2 = uval x + uval y := by
  induction x generalizing y with
  | nil =>
    obtain rfl := List.length_eq_zero_iff.1 h.symm
    rfl
  | cons a x ih =>
    obtain ⟨b, y, rfl⟩ := List.exists_cons_of_length_eq_add_one h.symm
    have htail : x.length = y.length := by simpa using h
    have hdigit := fullAdder_digits a b (rca x y).2
    calc uval (rca (a :: x) (b :: y)).1 + 2 ^ (x.length + 1) * bitNat (rca (a :: x) (b :: y)).2
        = (bitNat a + bitNat b + bitNat (rca x y).2) * 2 ^ x.length + uval (rca x y).1 := by
          rw [← hdigit, rca, uval_cons, length_rca htail]
          ring
      _ = (bitNat a + bitNat b) * 2 ^ x.length + (uval (rca x y).1 + 2 ^ x.length * bitNat (rca x y).2) := by ring
      _ = uval (a :: x) + uval (b :: y) := by
          rw [ih htail, uval_cons, uval_cons, htail]
          ring

/-- The adder without its carry out adds modulo the width's power of two (R67, R69). -/
theorem uval_rca_modEq {x y : Bits} (h : x.length = y.length) :
    (uval (rca x y).1 : ℤ) ≡ uval x + uval y [ZMOD 2 ^ x.length] := by
  have hsum := uval_rca h
  zify at hsum
  rw [← hsum]
  exact Int.modEq_add_modulus_mul_iff.2 rfl

/-! ### The sign of a sum (R68) -/

/-- On opposite signs SRES takes the sign of the larger magnitude, and 0 on equal magnitudes (R68). -/
theorem sres_of_sign_ne {a b : BigVal} (ha : a.canonical) (hb : b.canonical) (hsign : a.sign ≠ b.sign) :
    sres a b = true ↔
      (a.sign = true ∧ uval b.mag < uval a.mag) ∨ (b.sign = true ∧ uval a.mag < uval b.mag) := by
  rw [sres, if_neg hsign, mcmp_eq_compare ha.1 hb.1]
  rcases Nat.lt_trichotomy (uval a.mag) (uval b.mag) with hlt | heq | hgt
  · simp [compare_lt_iff_lt.2 hlt, hlt, hlt.not_gt]
  · simp [heq]
  · simp [compare_gt_iff_gt.2 hgt, hgt, hgt.not_gt]

/-- The sign SRES resolves in advance is the sign of the sum of canonical values (R68). -/
theorem sres_iff {a b : BigVal} (ha : a.canonical) (hb : b.canonical) :
    sres a b = true ↔ a.val + b.val < 0 := by
  cases hsa : a.sign <;> cases hsb : b.sign
  case false.false =>
    have hsum : ¬ (uval a.mag + uval b.mag : ℤ) < 0 := by omega
    simpa [sres, hsa, hsb, val_nonneg] using hsum
  case true.true =>
    have := uval_pos_of_canonical ha hsa
    have hsum : (-uval a.mag + -uval b.mag : ℤ) < 0 := by omega
    simpa [sres, hsa, hsb, val_negative] using hsum
  case false.true =>
    rw [sres_of_sign_ne ha hb (by simp [hsa, hsb]), val_nonneg hsa, val_negative hsb]
    simp [hsa, hsb]
  case true.false =>
    rw [sres_of_sign_ne ha hb (by simp [hsa, hsb]), val_negative hsa, val_nonneg hsb]
    simp [hsa, hsb]

/-! ### The adder (R69, R70) -/

theorem le_addWidth_left (a b : BigVal) : a.mag.length ≤ addWidth a b := by
  have := le_max_left a.mag.length b.mag.length
  rw [addWidth]
  omega

theorem le_addWidth_right (a b : BigVal) : b.mag.length ≤ addWidth a b := by
  have := le_max_right a.mag.length b.mag.length
  rw [addWidth]
  omega

theorem length_addOperand {v : BigVal} {w : Nat} (h : v.mag.length ≤ w) : (addOperand v w).length = w := by
  cases hs : v.sign <;> simp [addOperand, hs, length_padw h]

/-- An operand of the adder is its integer modulo the padded width's power of two (R69 steps 2 and 3). -/
theorem uval_addOperand_modEq {v : BigVal} {w : Nat} (h : v.mag.length ≤ w) :
    (uval (addOperand v w) : ℤ) ≡ v.val [ZMOD 2 ^ w] := by
  cases hs : v.sign
  · simp [addOperand, hs, val_nonneg hs]
  · simpa [addOperand, hs, val_negative hs, length_padw h] using uval_tcw_modEq (padw v.mag w)

theorem length_addSum {a b : BigVal} {w : Nat} (ha : a.mag.length ≤ w) (hb : b.mag.length ≤ w) :
    (rca (addOperand a w) (addOperand b w)).1.length = w :=
  (length_rca ((length_addOperand ha).trans (length_addOperand hb).symm)).trans (length_addOperand ha)

/-- The sum bits are the sum modulo the padded width's power of two (R69 step 4). -/
theorem uval_addSum_modEq {a b : BigVal} {w : Nat} (ha : a.mag.length ≤ w) (hb : b.mag.length ≤ w) :
    (uval (rca (addOperand a w) (addOperand b w)).1 : ℤ) ≡ a.val + b.val [ZMOD 2 ^ w] := by
  have hlen := (length_addOperand ha).trans (length_addOperand hb).symm
  have hrca := uval_rca_modEq hlen
  rw [length_addOperand ha] at hrca
  exact hrca.trans ((uval_addOperand_modEq ha).add (uval_addOperand_modEq hb))

/-- The magnitude the adder normalizes has the padded width. -/
theorem length_addMagnitude (a b : BigVal) : (addMagnitude a b).length = addWidth a b := by
  have hsum := length_addSum (le_addWidth_left a b) (le_addWidth_right a b)
  cases hs : sres a b <;> simp [addMagnitude, hs, hsum]

/-- The magnitude the adder normalizes, under the sign resolved in advance, is the sum modulo the padded width's power
of two (R69 steps 2 to 5). -/
theorem val_addMagnitude_modEq (a b : BigVal) :
    BigVal.val ⟨sres a b, addMagnitude a b⟩ ≡ a.val + b.val [ZMOD 2 ^ addWidth a b] := by
  have hsum := uval_addSum_modEq (le_addWidth_left a b) (le_addWidth_right a b)
  cases hs : sres a b
  · simpa [addMagnitude, hs] using hsum
  · have htcw := (uval_tcw_modEq (rca (addOperand a (addWidth a b)) (addOperand b (addWidth a b))).1).neg
    rw [length_addSum (le_addWidth_left a b) (le_addWidth_right a b), neg_neg] at htcw
    simpa [addMagnitude, hs] using htcw.trans hsum

/-- The sum of two values needs one bit more than the longer magnitude; the adder has two guard bits (R70). -/
theorem natAbs_val_add_lt (a b : BigVal) : (a.val + b.val).natAbs < 2 ^ (addWidth a b - 1) := by
  have ha : uval a.mag < 2 ^ max a.mag.length b.mag.length :=
    (uval_lt _).trans_le (Nat.pow_le_pow_right two_pos (le_max_left _ _))
  have hb : uval b.mag < 2 ^ max a.mag.length b.mag.length :=
    (uval_lt _).trans_le (Nat.pow_le_pow_right two_pos (le_max_right _ _))
  calc (a.val + b.val).natAbs ≤ uval a.mag + uval b.mag := by
        simpa [natAbs_val] using Int.natAbs_add_le a.val b.val
    _ < 2 ^ max a.mag.length b.mag.length * 2 := by omega
    _ = 2 ^ (addWidth a b - 1) := (Nat.pow_succ ..).symm

/-- The magnitude the adder normalizes is that of the sum, when the sign resolved in advance fits the sum (R70). -/
theorem val_addMagnitude {a b : BigVal} (hneg : sres a b = true → a.val + b.val ≤ 0)
    (hpos : sres a b = false → 0 ≤ a.val + b.val) :
    BigVal.val ⟨sres a b, addMagnitude a b⟩ = a.val + b.val := by
  have hfit : (a.val + b.val).natAbs < 2 ^ addWidth a b :=
    (natAbs_val_add_lt a b).trans_le (Nat.pow_le_pow_right two_pos (Nat.sub_le _ 1))
  have hmag : uval (addMagnitude a b) < 2 ^ addWidth a b := length_addMagnitude a b ▸ uval_lt _
  have hclose : |a.val + b.val - BigVal.val ⟨sres a b, addMagnitude a b⟩| < 2 ^ addWidth a b := by
    zify at hfit hmag
    rw [abs_lt] at hfit ⊢
    cases hs : sres a b
    · have := hpos hs
      rw [val_mk_false]
      omega
    · have := hneg hs
      rw [val_mk_true]
      omega
  have hdiff := Int.eq_zero_of_abs_lt_dvd (val_addMagnitude_modEq a b).dvd hclose
  omega

/-- ADDSM is exact for canonical operands (R70). -/
theorem addsm_eq_magx {a b : BigVal} (ha : a.canonical) (hb : b.canonical) : addsm a b = magx (a.val + b.val) := by
  have hsign := sres_iff ha hb
  rw [addsm, canon_eq_magx, val_addMagnitude (fun h => (hsign.1 h).le) (fun h => ?_)]
  simpa [h] using hsign

end Sys2Proof.Machine
end

section
/-! The family of 42_add_sub.md: the word of a command with three registers, a value that is too long, and ADD. -/

namespace Sys2Proof

/-- The word of a row of format R3 is the opcode over its three fields, and decodes to the row's command when the
registers exist (30_encoding.md R42, R49). -/
theorem decode_assemble_r3 {r : Row} (hr : r ∈ opcodeTable) (hf : r.format = .r3) (c : Config) {rd a b : Reg}
    (imm : Nat) (hregs : (r.build rd a b (sampleImm c imm)).regsExist c.nreg = true) :
    decode c (r.matchWord ||| (rd.setWidth 32 <<< 20) ||| (a.setWidth 32 <<< 16) ||| (b.setWidth 32 <<< 12)) imm =
      .ok (r.build rd a b (sampleImm c imm)) :=
  decode_assemble hr c imm (by simp [hf, Format.usesRd]) (by simp [hf, Format.usesRs1]) (by simp [hf, Format.usesRs2])
    hregs

end Sys2Proof

namespace Sys2Proof.Machine

/-- A command whose registers exist and whose value is too long raises CAPACITY (10_state.md R24; 60_exceptions.md
R153). -/
theorem exec_capacity {i : Instr} {s : State} {rd : Reg} {v : BigVal} (hregs : s.hasRegs i.regs = true)
    (hres : resultOf i s = .value rd v) (hlong : tooLong s.cfg v = true) :
    exec i s = .next (s.raise .capacity) := by
  rw [exec_eq_guarded, State.guarded_of_has hregs, hres, State.finish_tooLong hlong]

/-- In a legal state a register that exists holds a canonical value (10_state.md R11, R13). -/
theorem State.Inv.canonical_readReg {s : State} (h : s.Inv) {r : Reg} (hr : r.toNat < s.cfg.nreg) :
    (s.readReg r).canonical := by
  obtain ⟨-, hlen, hvals, -⟩ := h
  have hread : s.readReg r = s.regs[r.toNat]'(hlen ▸ hr) := by
    simp [State.readReg, hlen, hr]
  rw [hread]
  exact (hvals _ (List.getElem_mem _)).1

/-- ADD's result is the canonical representation of the exact sum of its sources (R95). -/
theorem resultOf_add {s : State} (h : s.Inv) {rd rs1 rs2 : Reg} (hregs : s.hasRegs [rd, rs1, rs2] = true) :
    resultOf (.add rd rs1 rs2) s = .value rd (magx ((s.readReg rs1).val + (s.readReg rs2).val)) := by
  have hexist := (s.hasRegs_iff _).1 hregs
  have h1 := h.canonical_readReg (hexist rs1 (by simp))
  have h2 := h.canonical_readReg (hexist rs2 (by simp))
  rw [resultOf, addsm_eq_magx h1 h2]

/-- Settles O41: the word is that of the row of ADD, and ADDSM of the old canonical sources is exact; the frame writes
it or raises CAPACITY. -/
theorem addCommand : Obligations.AddCommand := by
  intro s rd rs1 rs2 hinv hregs
  have hrow : (⟨0x10#8, .r3, fun rd a b _ => .add rd a b⟩ : Row) ∈ opcodeTable :=
    List.mem_of_getElem? (i := 2) rfl
  have hres := resultOf_add hinv hregs
  exact ⟨fun imm => decode_assemble_r3 hrow rfl s.cfg imm hregs, exec_value hregs hres, exec_capacity hregs hres⟩

end Sys2Proof.Machine
end

section
/-! The family of 43_multiply.md: MULSM is the exact product of any two values (R100, R102), and MUL. -/

namespace Sys2Proof.Machine

/-! ### The rules of the multiplier's parts -/

/-- The representation MAGX gives of an integer denotes that integer (R12, R62). -/
@[simp] theorem val_magx (a : Int) : (magx a).val = a := by
  rcases lt_or_ge a 0 with ha | ha
  · rw [val_negative (by simp [magx, ha])]
    simp [magx, abs_of_neg ha]
  · rw [val_nonneg (by simp [magx, ha])]
    simp [magx, abs_of_nonneg ha]

/-- Appending zeros multiplies by a power of two (R73). -/
@[simp] theorem uval_appendz (x : Bits) (n : Nat) : uval (appendz x n) = uval x * 2 ^ n := by
  simp [appendz, uval_append]

/-- On equal signs ADDSM is exact whatever the leading zeros: the sign of the sum is resolved without comparing the
magnitudes (R69, R70). -/
theorem addsm_eq_magx_of_sign_eq {a b : BigVal} (hsign : a.sign = b.sign) : addsm a b = magx (a.val + b.val) := by
  have hs : sres a b = a.sign := if_pos hsign
  rw [addsm, canon_eq_magx, val_addMagnitude]
  · intro h
    have ha : a.sign = true := hs ▸ h
    rw [val_negative ha, val_negative (hsign ▸ ha)]
    omega
  · intro h
    have ha : a.sign = false := hs ▸ h
    rw [val_nonneg ha, val_nonneg (hsign ▸ ha)]
    omega

/-! ### The multiplier (R100, R102) -/

/-- Adding a non-negative magnitude to a non-negative total, as MULSM does on a 1 (R100 note 3). -/
theorem addsm_magx_natCast (n : Nat) (x : Bits) : addsm (magx n) ⟨false, x⟩ = magx (n + uval x : Nat) := by
  have hsign : (magx n).sign = false := by simp [magx]
  rw [addsm_eq_magx_of_sign_eq hsign]
  simp

/-- The loop of MULSM adds to its total the shifted magnitude times the bits still to scan, which it takes least
significant first (R100 note 2). -/
theorem mulLoop_eq_magx (bits : Bits) (n : Nat) (shifted : Bits) :
    mulLoop bits (magx n) shifted = magx (n + uval bits.reverse * uval shifted : Nat) := by
  induction bits generalizing n shifted with
  | nil => simp [mulLoop]
  | cons b rest ih =>
    have htotal : (if b then addsm (magx n) ⟨false, shifted⟩ else magx n) =
        magx (n + bitNat b * uval shifted : Nat) := by
      cases b
      · simp
      · simp [addsm_magx_natCast]
    have hbits : uval (b :: rest).reverse = uval rest.reverse * 2 + bitNat b := by
      simp [uval_append]
    rw [mulLoop, htotal, ih, uval_appendz, hbits]
    congr 2
    ring

/-- The sign rule of MULSM: the product of two magnitudes, negative iff the operands' signs differ, is the product of
the integers. -/
theorem val_xor_sign {a b : BigVal} {x : Bits} (hx : uval x = uval a.mag * uval b.mag) :
    BigVal.val ⟨a.sign ^^ b.sign, x⟩ = a.val * b.val := by
  cases hsa : a.sign <;> cases hsb : b.sign <;> simp [BigVal.val, hsa, hsb, hx]

/-- MULSM is exact (R102), canonical operands or not. -/
theorem mulsm_eq_magx (a b : BigVal) : mulsm a b = magx (a.val * b.val) := by
  have hloop : mulLoop a.mag.reverse BigVal.zero b.mag = magx (uval a.mag * uval b.mag : Nat) := by
    have hzero : BigVal.zero = magx (0 : Nat) := rfl
    rw [hzero, mulLoop_eq_magx, List.reverse_reverse, Nat.zero_add]
  rw [mulsm, canon_eq_magx, hloop, val_xor_sign]
  exact uval_magOfNat _

/-- Settles O43: the word is that of the row of MUL, and MULSM of the old sources is exact, so that the frame writes
the product or raises CAPACITY on it. -/
theorem mulCommand : Obligations.MulCommand := by
  intro s rd rs1 rs2 _ hregs
  have hrow : (⟨0x18#8, .r3, fun rd a b _ => .mul rd a b⟩ : Row) ∈ opcodeTable :=
    List.mem_of_getElem? (i := 4) rfl
  have hres : resultOf (.mul rd rs1 rs2) s = .value rd (magx ((s.readReg rs1).val * (s.readReg rs2).val)) := by
    rw [resultOf, mulsm_eq_magx]
  exact ⟨fun imm => decode_assemble_r3 hrow rfl s.cfg imm hregs, exec_value hregs hres, exec_capacity hregs hres⟩

end Sys2Proof.Machine
end

section
/-! The family of 49_render.md: the decimal numeral by its recursion (R142), the word of a command with one source, a
command that answers with a text, and REND10 and REND2. -/

namespace Sys2Proof

/-- The word of a row of format S1 is the opcode over its one source field, and decodes to the row's command when the
register exists (30_encoding.md R42, R49). -/
theorem decode_assemble_s1 {r : Row} (hr : r ∈ opcodeTable) (hf : r.format = .s1) (c : Config) {a : Reg} (imm : Nat)
    (hregs : (r.build 0 a 0 (sampleImm c imm)).regsExist c.nreg = true) :
    decode c (r.matchWord ||| (a.setWidth 32 <<< 16)) imm = .ok (r.build 0 a 0 (sampleImm c imm)) := by
  have hword : r.matchWord ||| (a.setWidth 32 <<< 16) = assemble r.opcode 0 a 0 := by
    simp [assemble, Row.matchWord]
  rw [hword]
  exact decode_assemble hr c imm (fun _ => rfl) (by simp [hf, Format.usesRs1]) (fun _ => rfl) hregs

end Sys2Proof

namespace Sys2Proof.Machine

/-! ### A command that answers with a text (10_state.md R24) -/

/-- A command whose registers exist and whose result is a text completes with it. -/
theorem exec_text {i : Instr} {s : State} {x : Text} (hregs : s.hasRegs i.regs = true)
    (hres : resultOf i s = .text x) : exec i s = .next (s.complete x) := by
  rw [exec_eq_guarded, State.guarded_of_has hregs, hres, State.finish]

/-- A command whose registers exist and whose rule raises a fault of its own takes that fault. -/
theorem exec_fault {i : Instr} {s : State} {c : Cause} (hregs : s.hasRegs i.regs = true)
    (hres : resultOf i s = .fault c) : exec i s = .next (s.raise c) := by
  rw [exec_eq_guarded, State.guarded_of_has hregs, hres, State.finish]

/-- In a legal state the source of a command of format S1 is canonical. -/
theorem State.Inv.canonical_source {s : State} (h : s.Inv) {rs1 : Reg} (hregs : s.hasRegs [rs1] = true) :
    (s.readReg rs1).canonical :=
  h.canonical_readReg ((s.hasRegs_iff _).1 hregs rs1 (by simp))

/-! ### The decimal numeral (R142) -/

theorem decDigits_of_lt (fuel : Nat) {v : Nat} (h : v < 10) : decDigits fuel v = [digit v] := by
  cases fuel
  · rw [decDigits, Nat.mod_eq_of_lt h]
  · rw [decDigits, if_pos h]

/-- The bound on the number of digits does not show, once it is at least the number. -/
theorem decDigits_eq_of_le {m n v : Nat} (hm : v ≤ m) (hn : v ≤ n) : decDigits m v = decDigits n v := by
  induction m generalizing n v with
  | zero =>
    have hv : v < 10 := by omega
    rw [decDigits_of_lt 0 hv, decDigits_of_lt n hv]
  | succ m ih =>
    by_cases hv : v < 10
    · rw [decDigits_of_lt _ hv, decDigits_of_lt n hv]
    · obtain ⟨n, rfl⟩ : ∃ k, n = k + 1 := ⟨n - 1, by omega⟩
      rw [decDigits, decDigits, if_neg hv, if_neg hv, ih (n := n) (by omega) (by omega)]

theorem decNumeral_of_lt {v : Nat} (h : v < 10) : decNumeral v = [digit v] := decDigits_of_lt v h

theorem decNumeral_of_not_lt {v : Nat} (h : ¬ v < 10) :
    decNumeral v = decNumeral (v / 10) ++ [digit (v % 10)] := by
  obtain ⟨n, rfl⟩ : ∃ n, v = n + 1 := ⟨v - 1, by omega⟩
  rw [decNumeral, decDigits, if_neg h, decDigits_eq_of_le (n := (n + 1) / 10) (by omega) le_rfl, decNumeral]

/-- Settles O55: a number below ten is its one digit, and above it the bound `v` leaves enough for the digits of
`v div 10`. -/
theorem decimalNumeral : Obligations.DecimalNumeral := by
  intro v
  split_ifs with h
  · exact decNumeral_of_lt h
  · exact decNumeral_of_not_lt h

/-! ### REND10 (R141) -/

theorem overAccumulator_iff (accw : Option Nat) (m : Bits) :
    overAccumulator accw m = true ↔ ∃ k ∈ accw, k < m.length := by
  cases accw <;> simp [overAccumulator]

theorem render10_of_over {accw : Option Nat} {v : BigVal} (h : ∃ k ∈ accw, k < v.mag.length) :
    render10 accw v = .error .rendOvf :=
  if_pos ((overAccumulator_iff accw v.mag).2 h)

/-- A canonical magnitude that fits the accumulator is rendered as its integer's sign and numeral. -/
theorem render10_of_fits {accw : Option Nat} {v : BigVal} (hv : v.canonical) (h : ∀ k ∈ accw, v.mag.length ≤ k) :
    render10 accw v = .ok ((if v.val < 0 then [0x2D#8] else []) ++ decNumeral v.val.natAbs) := by
  have hfits : ¬ overAccumulator accw v.mag = true := by
    rw [overAccumulator_iff]
    rintro ⟨k, hk, hlong⟩
    exact (h k hk).not_gt hlong
  rw [render10, if_neg hfits, natAbs_val]
  simp only [val_neg_iff hv, chMinus]

/-- Settles O54: the word is that of the row of REND10; its rule faults exactly on a magnitude beyond the accumulator
and otherwise renders the integer of the canonical source. -/
theorem rend10Command : Obligations.Rend10Command := by
  intro s rs1 hinv hregs
  have hrow : (⟨0x50#8, .s1, fun _ a _ _ => .rend10 a⟩ : Row) ∈ opcodeTable :=
    List.mem_of_getElem? (i := 22) rfl
  refine ⟨fun imm => decode_assemble_s1 hrow rfl s.cfg imm hregs, fun hover => ?_, fun hfits => ?_⟩
  · exact exec_fault hregs (congrArg textOrFault (render10_of_over hover))
  · exact exec_text hregs (congrArg textOrFault (render10_of_fits (hinv.canonical_source hregs) hfits))

/-! ### REND2 (R143) -/

/-- REND2's sign condition, negative and not the magnitude `[0]`, is the negative integer on canonical values. -/
theorem render2_of_canonical {v : BigVal} (hv : v.canonical) :
    render2 v = (if v.val < 0 then [0x2D#8] else []) ++ [0x28#8] ++
      v.mag.map (fun b => if b then 0x31#8 else 0x30#8) ++ [0x29#8, 0x5F#8, 0x32#8] := by
  have hsign : (v.sign && decide (v.mag ≠ [false])) = true ↔ v.val < 0 := by
    rw [val_neg_iff hv, Bool.and_eq_true, decide_eq_true_iff, and_iff_left_iff_imp]
    intro hs hzero
    simp [hv.2 hzero] at hs
  have hchar : bitchar = fun b => if b then 0x31#8 else 0x30#8 := rfl
  simp only [render2, hsign, chMinus, hchar, List.append_assoc, List.cons_append, List.nil_append]

theorem length_render2 {v : BigVal} (hv : v.canonical) :
    (render2 v).length = v.mag.length + 4 + (if v.val < 0 then 1 else 0) := by
  rw [render2_of_canonical hv]
  split_ifs <;> simp

/-- Settles O56: the word is that of the row of REND2, whose rule has no fault and renders every bit of the canonical
source. -/
theorem rend2Command : Obligations.Rend2Command := by
  intro s rs1 hinv hregs
  have hrow : (⟨0x51#8, .s1, fun _ a _ _ => .rend2 a⟩ : Row) ∈ opcodeTable :=
    List.mem_of_getElem? (i := 23) rfl
  have hv := hinv.canonical_source hregs
  exact ⟨fun imm => decode_assemble_s1 hrow rfl s.cfg imm hregs, render2 (s.readReg rs1), exec_text hregs rfl,
    render2_of_canonical hv, length_render2 hv⟩

end Sys2Proof.Machine
end

section
/-! The family of 60_exceptions.md: the one `FSR` bit a fault sets, the faults a command has of its own, and what any
command's end does but for them. -/

namespace Sys2Proof.Machine

/-! ### Taking a fault (R150, R155) -/

/-- The codes of the causes are 1 to 5 (R150). -/
theorem Cause.code_range (c : Cause) : 1 ≤ c.code ∧ c.code ≤ 5 := by
  cases c <;> decide

/-- A cause's word has the bit of its code set and no other (10_state.md R16). -/
theorem Cause.getLsbD_fsrBit (c : Cause) (b : Nat) : c.fsrBit.getLsbD b = decide (c.code = b) := by
  have hfits : c.code < 6 := Nat.lt_succ_of_le c.code_range.2
  have hword : c.fsrBit = BitVec.twoPow 6 c.code := rfl
  simp [hword, BitVec.getLsbD_twoPow, hfits]

/-- A fault sets the `FSR` bit of its own code. -/
theorem State.getLsbD_raise_fsr_self (s : State) (c : Cause) : (s.raise c).fsr.getLsbD c.code = true := by
  simp [Cause.getLsbD_fsrBit]

/-- A fault leaves every other `FSR` bit alone. -/
theorem State.getLsbD_raise_fsr_of_ne (s : State) {c : Cause} {b : Nat} (h : b ≠ c.code) :
    (s.raise c).fsr.getLsbD b = s.fsr.getLsbD b := by
  simp [Cause.getLsbD_fsrBit, h.symm]

/-- Settles O16: a command's step raises a fault, which changes `FSR` in the bit of its code and answers, or it
completes, and then its response has `ok = 1`. -/
theorem faultEffect : Obligations.FaultEffect := by
  intro s s' w imm r hp hs hr hok
  rcases step_raise_or_complete hp hs with ⟨c, rfl⟩ | ⟨_, u, x, -, -, -, rfl⟩
  · obtain rfl := Option.some.inj ((s.respPort_raise c).symm.trans hr)
    obtain ⟨hlow, hhigh⟩ := c.code_range
    exact ⟨c.code, hlow, hhigh, rfl, rfl, rfl, s.getLsbD_raise_fsr_self c, fun _ => s.getLsbD_raise_fsr_of_ne, rfl, rfl,
      rfl, rfl⟩
  · obtain rfl := Option.some.inj ((u.respPort_complete x).symm.trans hr)
    cases hok

/-! ### A command's own fault (R152, R154, R156, R161) -/

theorem valueOrFault_eq_fault {rd : Reg} {x : Except Cause BigVal} {c : Cause} :
    valueOrFault rd x = .fault c ↔ x = .error c := by
  cases x <;> simp [valueOrFault]

theorem textOrFault_eq_fault {x : Except Cause Text} {c : Cause} : textOrFault x = .fault c ↔ x = .error c := by
  cases x <;> simp [textOrFault]

/-- FROMINT's rule faults only on the minimum native integer (R152). -/
theorem eq_minNative_of_fromNative_error {natw : Nat} {a : Int} {c : Cause} (h : fromNative natw a = .error c) :
    a = minNative natw := by
  by_contra hne
  simp [fromNative, hne] at h

/-- SHR's rule faults only on a count above the length (R154). -/
theorem length_lt_of_shrv_error {v : BigVal} {n : Nat} {c : Cause} (h : shrv v n = .error c) : v.mag.length < n := by
  by_contra hle
  rw [shrv, if_neg hle] at h
  split at h <;> cases h

/-- REND10's rule faults only on a magnitude beyond the accumulator (R156). -/
theorem over_of_render10_error {accw : Option Nat} {v : BigVal} {c : Cause} (h : render10 accw v = .error c) :
    ∃ k ∈ accw, k < v.mag.length := by
  rw [← overAccumulator_iff]
  by_contra hfits
  simp [render10, hfits] at h

/-- Only FROMINT, SHR and REND10 have a fault of their own, each on its own condition. -/
theorem resultOf_fault_cases {i : Instr} {s : State} {c : Cause} (h : resultOf i s = .fault c) :
    (∃ rd n, i = .fromint rd n ∧ sint s.cfg.natw n = minNative s.cfg.natw) ∨
    (∃ rd a n, i = .shr rd a n ∧ (s.readReg a).mag.length < uint s.cfg.natw n) ∨
    (∃ a, i = .rend10 a ∧ ∃ k ∈ s.cfg.accw, k < (s.readReg a).mag.length) := by
  cases i with
  | fromint rd n => exact .inl ⟨rd, n, rfl, eq_minNative_of_fromNative_error (valueOrFault_eq_fault.1 h)⟩
  | shr rd a n => exact .inr (.inl ⟨rd, a, n, rfl, length_lt_of_shrv_error (valueOrFault_eq_fault.1 h)⟩)
  | rend10 a => exact .inr (.inr ⟨a, rfl, over_of_render10_error (textOrFault_eq_fault.1 h)⟩)
  | _ => cases h

/-! ### The end of a command (10_state.md R24) -/

/-- The end of a command: the fault of its own rule, CAPACITY on a value that is too long, or completion with `FSR` as
it was. -/
theorem State.finish_fault_or_capacity_or_complete (s : State) (r : Result) :
    (∃ c, r = .fault c ∧ s.finish r = s.raise c) ∨
    (∃ rd v, r = .value rd v ∧ tooLong s.cfg v = true ∧ s.finish r = s.raise .capacity) ∨
    ∃ (u : State) (x : Text), u.fsr = s.fsr ∧ s.finish r = u.complete x := by
  rcases s.finish_cases r with ⟨c, hf, hr | ⟨rd, v, hr, hlong, rfl⟩⟩ | ⟨rd, v, _, _, hf⟩ | ⟨b, _, hf⟩ | ⟨x, _, hf⟩
  · exact .inl ⟨c, hr, hf⟩
  · exact .inr (.inl ⟨rd, v, hr, hlong, hf⟩)
  · exact .inr (.inr ⟨s.writeReg rd v, [], rfl, hf⟩)
  · exact .inr (.inr ⟨s.writeT b, [], rfl, hf⟩)
  · exact .inr (.inr ⟨s, x, rfl, hf⟩)

/-- A command whose result is a value writes a register (10_state.md R14). -/
theorem dest_of_resultOf_value {i : Instr} {s : State} {rd : Reg} {v : BigVal} (h : resultOf i s = .value rd v) :
    i.dest ≠ none := by
  intro hnone
  rcases resultOf_kind i s with ⟨_, hd, _⟩ | ⟨_, _, b, hr⟩ | ⟨_, _, _, ⟨x, hr⟩ | ⟨c, hr⟩⟩
  · simp [hd] at hnone
  · simp [hr] at h
  · simp [hr] at h
  · simp [hr] at h

/-- CAPACITY is raised only under a finite `MAXBITS` (R153). -/
theorem maxbits_ne_none_of_tooLong {c : Config} {v : BigVal} (h : tooLong c v = true) : c.maxbits ≠ none := by
  obtain ⟨n, hn, _⟩ := (tooLong_iff c v).1 h
  simp [Option.mem_def.1 hn]

/-- Settles O20: a fault of a command's own rule meets the condition the hypotheses exclude, so that only CAPACITY on a
value is left, and otherwise the command completes. -/
theorem nothingElseFaults : Obligations.NothingElseFaults := by
  intro i s hregs hfromint hshr hrend10
  rw [exec_eq_guarded, State.guarded_of_has hregs]
  rcases s.finish_fault_or_capacity_or_complete (resultOf i s) with
    ⟨c, hres, _⟩ | ⟨rd, v, hres, hlong, hf⟩ | ⟨u, x, hfsr, hf⟩
  · exfalso
    rcases resultOf_fault_cases hres with ⟨rd, n, hi, hmin⟩ | ⟨rd, a, n, hi, hlt⟩ | ⟨a, hi, k, hk, hlt⟩
    · exact hfromint rd n hi hmin
    · exact (hshr rd a n hi).not_gt hlt
    · exact (hrend10 a hi k hk).not_gt hlt
  · have hbound : ¬ (s.cfg.maxbits = none ∨ i.dest = none) :=
      not_or.2 ⟨maxbits_ne_none_of_tooLong hlong, dest_of_resultOf_value hres⟩
    exact ⟨_, _, congrArg _ hf, s.respPort_raise .capacity, nofun, fun h => absurd h hbound, fun _ => rfl⟩
  · exact ⟨_, _, congrArg _ hf, u.respPort_complete x, fun _ => hfsr, fun _ => rfl, nofun⟩

end Sys2Proof.Machine
end

section
/-! The family of 30_encoding.md, on the commands: each command is that of a row, so that encoding and decoding are
inverse to each other, and what a word decodes to by way of the `imm` port. -/

namespace Sys2Proof

/-! ### The row of a command (R42, R44) -/

/-- Every command is the command of some row, for the value it carries from the port. -/
theorem Instr.exists_row (i : Instr) : ∃ r ∈ opcodeTable, ∃ rd a b : Reg, r.build rd a b i.imm = i := by
  have row {r : Row} (rd a b : Reg) (hr : opcodeTable.find? (fun x => x.opcode == i.opcode) = some r)
      (hi : r.build rd a b i.imm = i) : ∃ r ∈ opcodeTable, ∃ rd a b : Reg, r.build rd a b i.imm = i :=
    ⟨r, List.mem_of_find?_eq_some hr, rd, a, b, hi⟩
  cases i with
  | zero rd | fromint rd | inc rd | dec rd => exact row rd 0 0 rfl rfl
  | add rd a b | sub rd a b | mul rd a b | and rd a b | or rd a b | xor rd a b => exact row rd a b rfl rfl
  | neg rd a | mov rd a | abs rd a | not rd a | shl rd a | shr rd a => exact row rd a 0 rfl rfl
  | ceq a b | cne a b | clt a b | cgt a b | cle a b | cge a b => exact row 0 a b rfl rfl
  | rend10 a | rend2 a => exact row 0 a 0 rfl rfl

/-- A row's command does not depend on the fields the format does not use. -/
theorem Row.build_used (rd a b : Reg) (n : Nat) :
    ∀ r ∈ opcodeTable, r.build (if r.format.usesRd then rd else 0) (if r.format.usesRs1 then a else 0)
      (if r.format.usesRs2 then b else 0) n = r.build rd a b n := by
  simp [opcodeTable, rowsArith, rowsUnaryCompare, rowsBitShiftRender, Format.usesRd, Format.usesRs1, Format.usesRs2]

/-- A row's command carries the port value, or none. -/
theorem Row.imm_build_le (rd a b : Reg) (n : Nat) : ∀ r ∈ opcodeTable, (r.build rd a b n).imm ≤ n := by
  simp [opcodeTable, rowsArith, rowsUnaryCompare, rowsBitShiftRender, Instr.imm]

/-- Only FROMINT, SHL and SHR carry the port value (R43). -/
theorem Row.build_imm_irrel (rd a b : Reg) (n m : Nat) :
    ∀ r ∈ opcodeTable, r.opcode ∉ [0x02#8, 0x48#8, 0x49#8] → r.build rd a b n = r.build rd a b m := by
  simp [opcodeTable, rowsArith, rowsUnaryCompare, rowsBitShiftRender]

/-! ### Encoding and decoding are inverse (R45, R46, D26) -/

theorem Instr.wf_iff (c : Config) (i : Instr) : i.wf c = true ↔ i.regsExist c.nreg = true ∧ i.imm < 2 ^ c.natw := by
  simp [Instr.wf, Instr.immFits]

/-- A number the port can carry is sampled as it is. -/
theorem sampleImm_of_lt {c : Config} {n : Nat} (h : n < 2 ^ c.natw) : sampleImm c n = n := Nat.mod_eq_of_lt h

theorem sampleImm_lt (c : Config) (n : Nat) : sampleImm c n < 2 ^ c.natw := Nat.mod_lt _ (Nat.two_pow_pos _)

/-- Settles O1: the command's word holds the fields its row uses over zeros, and the row reads the command back from
them. -/
theorem decodeOfEncode : Obligations.DecodeOfEncode := by
  intro c i hwf
  obtain ⟨hregs, himm⟩ := (i.wf_iff c).1 hwf
  obtain ⟨r, hr, rd, a, b, hi⟩ := i.exists_row
  have hfields := (Row.build_used rd a b (sampleImm c i.imm) r hr).trans ((sampleImm_of_lt himm).symm ▸ hi)
  have hword := Row.encode_build rd a b i.imm r hr
  rw [hi] at hword
  rw [hword, decode_assemble hr c i.imm (fun h => by simp [h]) (fun h => by simp [h]) (fun h => by simp [h])
    (hfields.symm ▸ hregs), hfields]

/-- Settles O2: a word that decodes matches its row's mask, and the registers and the sampled port value are those of a
well-formed command. -/
theorem encodeOfDecode : Obligations.EncodeOfDecode := by
  intro c w imm i h
  rcases decode_cases c w imm with ⟨_, he⟩ | ⟨r, hr, -, ⟨_, he⟩ | ⟨_, _, he⟩ | ⟨hm, hregs, hok⟩⟩
  · simp [he] at h
  · simp [he] at h
  · simp [he] at h
  · obtain rfl := Except.ok.inj (hok.symm.trans h)
    have himm := (Row.imm_build_le (rdOf w) (rs1Of w) (rs2Of w) _ r hr).trans_lt (sampleImm_lt c imm)
    exact ⟨encode_build_of_match hr hm _, (Instr.wf_iff c _).2 ⟨hregs, himm⟩⟩

/-! ### The example words and the port (R43, R49) -/

/-- Settles O3: the seven words are literals, so the decoder runs on them. -/
theorem specExampleWordsDecode : Obligations.SpecExampleWordsDecode := by
  unfold Obligations.SpecExampleWordsDecode
  decide

/-- Settles O6: the decoder looks at the port through its sampled value only, and only the rows of FROMINT, SHL and SHR
build a command from that. -/
theorem immediatePort : Obligations.ImmediatePort := by
  refine fun c w imm imm' => ⟨fun hop => ?_, fun hmod => ?_⟩
  · by_cases hrow : ∃ r ∈ opcodeTable, r.opcode = opcodeOf w
    · obtain ⟨r, hr, ho⟩ := hrow
      rw [decode_of_row hr c w imm ho, decode_of_row hr c w imm' ho,
        Row.build_imm_irrel _ _ _ _ (sampleImm c imm') r hr (ho ▸ hop)]
    · have hnone : ∀ r ∈ opcodeTable, r.opcode ≠ opcodeOf w := by simpa using hrow
      rw [decode_of_no_row hnone, decode_of_no_row hnone]
  · have hsample : sampleImm c imm = sampleImm c imm' := hmod
    simp only [decode, hsample]

end Sys2Proof
end

section
/-! The family of 10_state.md, on the steps: what a command can leave behind, said once, and from it the two invariants,
the configuration and the host's list, the sticky `FSR`, and the writers of `T`. -/

namespace Sys2Proof

/-! ### The kinds of commands (R14, R15) -/

/-- A compare has one of the six opcodes of the compares (30_encoding.md R44). -/
theorem Instr.opcode_of_isCompare {i : Instr} (h : i.isCompare = true) :
    i.opcode ∈ [0x30#8, 0x31#8, 0x32#8, 0x33#8, 0x34#8, 0x35#8] := by
  cases i with
  | ceq | cne | clt | cgt | cle | cge => simp [Instr.opcode]
  | _ => cases h

/-- A compare has no destination. -/
theorem Instr.dest_of_isCompare {i : Instr} (h : i.isCompare = true) : i.dest = none := by
  cases i with
  | ceq | cne | clt | cgt | cle | cge => rfl
  | _ => cases h

end Sys2Proof

namespace Sys2Proof.Machine

/-! ### What a command can leave behind (R24) -/

/-- A command raises a fault, or it completes after writing at most the registers and `T`. -/
theorem exec_raise_or_complete {i : Instr} {s s' : State} (h : exec i s = .next s') :
    (∃ c, s' = s.raise c) ∨
    ∃ (file : List BigVal) (b : Bit) (x : Text), s' = State.complete { s with regs := file, t := b } x := by
  rcases exec_effect h with ⟨c, hs⟩ | ⟨rd, v, -, -, -, -, hs⟩ | ⟨b, -, -, hs⟩ | ⟨x, -, -, hs⟩
  · exact .inl ⟨c, hs⟩
  · exact .inr ⟨s.regs.set rd.toNat v, s.t, [], hs⟩
  · exact .inr ⟨s.regs, b, [], hs⟩
  · exact .inr ⟨s.regs, s.t, x, hs⟩

/-- A step is a reset or ends a command word, with a fault or with completion. -/
theorem step_reset_or_raise_or_complete {s s' : State} (h : step s = .next s') :
    (s.presented = some .reset ∧ s' = s.takeReset) ∨ (∃ c, s' = s.raise c) ∨
    ∃ (file : List BigVal) (b : Bit) (x : Text), s' = State.complete { s with regs := file, t := b } x := by
  rcases step_cases h with hreset | ⟨w, imm, -, ⟨e, -, hs⟩ | ⟨i, -, hexec⟩⟩
  · exact .inl hreset
  · exact .inr (.inl ⟨_, hs⟩)
  · exact .inr (exec_raise_or_complete hexec)

/-- Settles O14: neither a reset nor the end of a command touches the configuration or the list, and each advances the
index by 1. -/
theorem stepKeepsConfigurationAndProgram : Obligations.StepKeepsConfigurationAndProgram := by
  intro s s' h
  rcases step_reset_or_raise_or_complete h with ⟨-, rfl⟩ | ⟨c, rfl⟩ | ⟨file, b, x, rfl⟩
  · exact ⟨rfl, rfl, rfl⟩
  · exact ⟨rfl, rfl, rfl⟩
  · exact ⟨rfl, rfl, rfl⟩

/-! ### The step itself, and reset (R24, R170) -/

/-- Settles O7: each clause is the branch of `step` for what the host presents. -/
theorem stepRunsTheDecodedCommand : Obligations.StepRunsTheDecodedCommand := by
  refine ⟨fun s w imm i hp hi => ?_, fun s hp => ?_, fun s hp => ?_⟩
  · simp [step, hp, hi]
  · simp [step, hp]
  · simp [step, hp]

/-- Settles O9: the step is `State.takeReset`, which fills the register file with `+[0]`. -/
theorem resetMove : Obligations.ResetMove := by
  intro s hp
  obtain ⟨-, hreset, -⟩ := stepRunsTheDecodedCommand
  exact ⟨_, hreset s hp, by simp, fun r _ => State.readReg_of_regs_zero s.takeReset_regs r, rfl, rfl, rfl, rfl, rfl, rfl⟩

/-! ### The legal state (R11, R13, R16) -/

theorem canonical_zero : BigVal.zero.canonical := ⟨.inl rfl, fun _ => rfl⟩

/-- The representation MAGX gives of an integer is canonical (R12, R62). -/
theorem canonical_magx (a : Int) : (magx a).canonical := by
  refine ⟨canonicalMag_magOfNat _, fun hzero => ?_⟩
  have habs : a.natAbs = 0 := by simpa [magx, uval] using congrArg uval hzero
  simp [magx, Int.natAbs_eq_zero.1 habs]

/-- A register file of `NREG` zeros with `FSR` clear is legal under a legal configuration. -/
theorem State.inv_of_regs_zero {s : State} (hcfg : s.cfg.wf) (hregs : s.regs = List.replicate s.cfg.nreg BigVal.zero)
    (hfsr : s.fsr = 0) : s.Inv := by
  refine ⟨hcfg, by simp [hregs], fun v hv => ?_, by simp [hfsr]⟩
  obtain rfl : v = BigVal.zero := List.eq_of_mem_replicate (hregs ▸ hv)
  exact ⟨canonical_zero, tooLong_of_length_le_one hcfg le_rfl⟩

/-- Writing a canonical value within the bound keeps the state legal. -/
theorem State.Inv.writeReg {s : State} (h : s.Inv) (rd : Reg) {v : BigVal} (hv : v.canonical)
    (hfit : tooLong s.cfg v = false) : (s.writeReg rd v).Inv := by
  obtain ⟨hcfg, hlen, hvals, hfsr⟩ := h
  refine ⟨hcfg, by simpa using hlen, fun u hu => ?_, hfsr⟩
  rcases List.mem_or_eq_of_mem_set hu with hold | rfl
  · exact hvals u hold
  · exact ⟨hv, hfit⟩

/-- No fault sets `FSR` bit 0 (R16). -/
theorem State.Inv.raise {s : State} (h : s.Inv) (c : Cause) : (s.raise c).Inv := by
  obtain ⟨hcfg, hlen, hvals, hfsr⟩ := h
  exact ⟨hcfg, hlen, hvals, (s.getLsbD_raise_fsr_of_ne (Nat.ne_of_lt c.code_range.1)).trans hfsr⟩

/-- In a legal state every read answers a canonical value within the bound: beyond the file it answers `+[0]`. -/
theorem State.Inv.read {s : State} (h : s.Inv) (r : Reg) :
    (s.readReg r).canonical ∧ tooLong s.cfg (s.readReg r) = false := by
  obtain ⟨hcfg, -, hvals, -⟩ := h
  by_cases hr : r.toNat < s.regs.length
  · have hread : s.readReg r = s.regs[r.toNat] := by simp [State.readReg, hr]
    exact hread ▸ hvals _ (List.getElem_mem hr)
  · have hread : s.readReg r = BigVal.zero := by
      simp [State.readReg, List.getD, List.getElem?_eq_none (not_lt.1 hr)]
    exact hread ▸ ⟨canonical_zero, tooLong_of_length_le_one hcfg le_rfl⟩

theorem State.Inv.canonical_read {s : State} (h : s.Inv) (r : Reg) : (s.readReg r).canonical := (h.read r).1

theorem State.Inv.fits_read {s : State} (h : s.Inv) (r : Reg) : tooLong s.cfg (s.readReg r) = false := (h.read r).2

/-- FROMINT's rule yields the representation MAGX gives (41_construct.md R91). -/
theorem canonical_of_fromNative {natw : Nat} {a : Int} {v : BigVal} (h : fromNative natw a = .ok v) : v.canonical := by
  unfold fromNative at h
  split at h
  · cases h
  · exact Except.ok.inj h ▸ canonical_magx a

/-- SHR's rule yields `+[0]` or a value from CANON (48_shift.md R137). -/
theorem canonical_of_shrv {v u : BigVal} {n : Nat} (h : shrv v n = .ok u) : u.canonical := by
  unfold shrv at h
  split_ifs at h
  · exact Except.ok.inj h ▸ canonical_zero
  · exact Except.ok.inj h ▸ canonical_canon _ _

theorem valueOrFault_eq_value {rd d : Reg} {x : Except Cause BigVal} {v : BigVal} :
    valueOrFault rd x = .value d v ↔ rd = d ∧ x = .ok v := by
  cases x <;> simp [valueOrFault]

/-- Every value a command writes is canonical (R11): it comes from CANON or MAGX, or is a canonical source. -/
theorem State.Inv.canonical_of_resultOf_value {s : State} (h : s.Inv) {i : Instr} {rd : Reg} {v : BigVal}
    (hres : resultOf i s = .value rd v) : v.canonical := by
  cases i with
  | zero d => cases hres; exact canonical_zero
  | mov d a => cases hres; exact h.canonical_read a
  | abs d a => cases hres; exact ⟨(h.canonical_read a).1, fun _ => rfl⟩
  | fromint d n => exact canonical_of_fromNative (valueOrFault_eq_value.1 hres).2
  | shr d a n => exact canonical_of_shrv (valueOrFault_eq_value.1 hres).2
  | add | sub | mul | inc | dec | neg | not | and | or | xor | shl => cases hres; exact canonical_canon _ _
  | ceq | cne | clt | cgt | cle | cge | rend2 => cases hres
  | rend10 a =>
    rcases textOrFault_cases (render10 s.cfg.accw (s.readReg a)) with ⟨x, hx⟩ | ⟨c, hc⟩
    · cases hx.symm.trans hres
    · cases hc.symm.trans hres

/-- Settles O11: a reset and a fault keep the state legal, and the one value a command writes is canonical and has
passed the CAPACITY check. -/
theorem stepKeepsInv : Obligations.StepKeepsInv := by
  intro s s' hinv h
  rcases step_cases h with ⟨-, rfl⟩ | ⟨w, imm, -, ⟨e, -, rfl⟩ | ⟨i, -, hexec⟩⟩
  · exact State.inv_of_regs_zero hinv.1 rfl rfl
  · exact hinv.raise _
  · rcases exec_effect hexec with ⟨c, rfl⟩ | ⟨rd, v, -, -, hres, hfit, rfl⟩ | ⟨b, -, -, rfl⟩ | ⟨x, -, -, rfl⟩
    · exact hinv.raise c
    · exact hinv.writeReg rd (hinv.canonical_of_resultOf_value hres) hfit
    · exact hinv
    · exact hinv

/-! ### The record of the faults (R16, R19, R160) -/

/-- The cause field of a fault holds its code (60_exceptions.md R150). -/
theorem Cause.toNat_code_response (c : Cause) : (BitVec.ofNat 3 c.code).toNat = c.code := by
  cases c <;> rfl

theorem Cause.code_response_inj {c d : Cause} (h : BitVec.ofNat 3 c.code = BitVec.ofNat 3 d.code) :
    c.code = d.code := by
  rw [← c.toNat_code_response, h, d.toNat_code_response]

/-- No cause has the code 0 of a completed command. -/
theorem Cause.code_response_ne_zero (c : Cause) : BitVec.ofNat 3 c.code ≠ 0 := by
  cases c <;> decide

/-- A state with no response and `FSR` clear records its faults. -/
theorem State.record_of_no_responses {s : State} (hfsr : s.fsr = 0) (hresp : s.responses = []) : s.Record :=
  ⟨by simp [hfsr, hresp], by simp [hresp], by simp [hresp]⟩

/-- A fault sets the bit of the cause its response reports. -/
theorem State.Record.raise {s : State} (h : s.Record) (c : Cause) : (s.raise c).Record := by
  obtain ⟨hbits, hwf, -⟩ := h
  refine ⟨fun d hd => ?_, fun r hr => ?_, by simp⟩
  · have hcode : c.code = d.code ↔ BitVec.ofNat 3 c.code = BitVec.ofNat 3 d.code :=
      ⟨congrArg _, Cause.code_response_inj⟩
    rw [State.raise_fsr, BitVec.getLsbD_or, Bool.or_eq_true, hbits d hd, Cause.getLsbD_fsrBit, decide_eq_true_iff, hcode]
    simp [or_and_right, exists_or]
  · rcases List.mem_append.1 hr with hold | hnew
    · exact hwf r hold
    · obtain rfl := List.mem_singleton.1 hnew
      exact ⟨by simpa using c.code_response_ne_zero, c.code_response.2, fun _ => rfl⟩

/-- A command that completes reports no cause and leaves `FSR` alone. -/
theorem State.Record.complete {s : State} (h : s.Record) (file : List BigVal) (b : Bit) (x : Text) :
    (State.complete { s with regs := file, t := b } x).Record := by
  obtain ⟨hbits, hwf, -⟩ := h
  refine ⟨fun d hd => ?_, fun r hr => ?_, by simp⟩
  · have hzero : (0 : BitVec 3) ≠ BitVec.ofNat 3 d.code := d.code_response_ne_zero.symm
    rw [State.complete_fsr, hbits d hd]
    simp only [State.complete_responses, List.mem_append, List.mem_singleton, or_and_right, exists_or,
      exists_eq_left, hzero, or_false]
  · rcases List.mem_append.1 hr with hold | hnew
    · exact hwf r hold
    · obtain rfl := List.mem_singleton.1 hnew
      exact ⟨by simp, by simp, nofun⟩

/-- Settles O12: a reset empties the record, a fault sets the bit its response reports, and completion reports none. -/
theorem stepKeepsRecord : Obligations.StepKeepsRecord := by
  intro s s' hrec h
  rcases step_reset_or_raise_or_complete h with ⟨-, rfl⟩ | ⟨c, rfl⟩ | ⟨file, b, x, rfl⟩
  · exact State.record_of_no_responses rfl rfl
  · exact hrec.raise c
  · exact hrec.complete file b x

/-- Settles O10: the reset state has only `+[0]` registers, `FSR` clear and no response. -/
theorem resetMeetsTheInvariants : Obligations.ResetMeetsTheInvariants :=
  fun _ _ hcfg => ⟨State.inv_of_regs_zero hcfg rfl rfl, State.record_of_no_responses rfl rfl⟩

/-- A response that reports a fault reports one of the five causes (R19). -/
theorem Response.ok_eq_false_iff {r : Response} (h : r.wf) :
    r.ok = false ↔ ∃ c ∈ Cause.all, r.cause = BitVec.ofNat 3 c.code := by
  obtain ⟨hok, hmax, -⟩ := h
  have hcauses : ∀ x : BitVec 3, x.toNat ≤ 5 → (x ≠ 0 ↔ ∃ c ∈ Cause.all, x = BitVec.ofNat 3 c.code) := by decide
  rw [← hcauses r.cause hmax, ne_eq, ← hok, Bool.not_eq_true]

/-- With bit 0 clear, `FSR` is not 0 exactly when it has the bit of some cause. -/
theorem fsr_ne_zero_iff {f : BitVec 6} (h : f.getLsbD 0 = false) :
    f ≠ 0 ↔ ∃ c ∈ Cause.all, f.getLsbD c.code = true := by
  revert f
  decide

/-- Settles O13: the bits of `FSR` are the causes reported, and a response has `ok = 0` exactly when it reports one. -/
theorem goneWrongIffSomeFault : Obligations.GoneWrongIffSomeFault := by
  rintro s ⟨-, -, -, hbit0⟩ ⟨hbits, hwf, -⟩
  calc s.goneWrong ↔ ∃ c ∈ Cause.all, s.fsr.getLsbD c.code = true := fsr_ne_zero_iff hbit0
    _ ↔ ∃ c ∈ Cause.all, ∃ r ∈ s.responses, r.cause = BitVec.ofNat 3 c.code :=
      exists_congr fun c => and_congr_right (hbits c)
    _ ↔ ∃ r ∈ s.responses, ∃ c ∈ Cause.all, r.cause = BitVec.ofNat 3 c.code := by
      simp only [← exists_and_left]
      rw [exists_comm]
      simp only [and_left_comm]
    _ ↔ ∃ r ∈ s.responses, r.ok = false :=
      exists_congr fun r => and_congr_right fun hr => (Response.ok_eq_false_iff (hwf r hr)).symm

/-! ### Sticky `FSR`, and the writers of `T` (R15, R16) -/

/-- A fault keeps every bit that is set. -/
theorem State.getLsbD_raise_fsr_of_set {s : State} {b : Nat} (h : s.fsr.getLsbD b = true) (c : Cause) :
    (s.raise c).fsr.getLsbD b = true := by
  simp [h]

/-- Settles O17: a fault only sets a bit and its response has `ok = 0`, completion leaves `FSR` alone, and a reset
clears it. -/
theorem fsrIsSticky : Obligations.FsrIsSticky := by
  refine fun s s' h => ⟨fun w imm hp => ?_, fun hp => ?_⟩
  · rcases step_reset_or_raise_or_complete h with ⟨hreset, -⟩ | ⟨c, rfl⟩ | ⟨file, b, x, rfl⟩
    · simp [hp] at hreset
    · refine ⟨fun b hb => State.getLsbD_raise_fsr_of_set hb c, fun r hr hok => ?_⟩
      obtain rfl := Option.some.inj ((s.respPort_raise c).symm.trans hr)
      cases hok
    · exact ⟨fun _ hb => hb, fun _ _ _ => rfl⟩
  · obtain ⟨-, hreset, -⟩ := stepRunsTheDecodedCommand
    cases h.symm.trans (hreset s hp)
    rfl

/-- Settles O18: an illegal word and a fault keep `T`, and a command that completes writes it only as a compare, whose
opcode is one of the six. -/
theorem onlyComparesWriteT : Obligations.OnlyComparesWriteT := by
  intro s s' w imm hp h hop
  rcases step_cases h with ⟨hreset, -⟩ | ⟨w', imm', hp', ⟨e, -, rfl⟩ | ⟨i, hi, hexec⟩⟩
  · simp [hp] at hreset
  · rfl
  · obtain ⟨rfl, rfl⟩ : w = w' ∧ imm = imm' := by simpa [hp] using hp'
    rcases exec_effect hexec with ⟨c, rfl⟩ | ⟨rd, v, -, -, -, -, rfl⟩ | ⟨b, hcmp, -, -⟩ | ⟨x, -, -, rfl⟩
    · rfl
    · rfl
    · exact absurd (opcode_of_decode hi ▸ Instr.opcode_of_isCompare hcmp) hop
    · rfl

/-! ### No command reads `T` or `FSR` (R14) -/

/-- Two states show the same registers and the same response, but for the `t` it carries. -/
def State.SameAnswer (s u : State) : Prop :=
  u.regs = s.regs ∧ ∃ r q : Response, s.respPort = some r ∧ u.respPort = some q ∧ q.ok = r.ok ∧ q.cause = r.cause ∧
    q.txt = r.txt

theorem State.sameAnswer_raise {s u : State} (h : u.regs = s.regs) (c : Cause) : (s.raise c).SameAnswer (u.raise c) :=
  ⟨h, _, _, s.respPort_raise c, u.respPort_raise c, rfl, rfl, rfl⟩

theorem State.sameAnswer_complete {s u : State} (h : u.regs = s.regs) (x : Text) :
    (s.complete x).SameAnswer (u.complete x) :=
  ⟨h, _, _, s.respPort_complete x, u.respPort_complete x, rfl, rfl, rfl⟩

/-- The end of a command looks at the configuration only, and writes the registers it is given. -/
theorem State.finish_sameAnswer {s u : State} (hcfg : u.cfg = s.cfg) (hregs : u.regs = s.regs) (res : Result) :
    (s.finish res).SameAnswer (u.finish res) := by
  cases res with
  | value rd v =>
    cases hfit : tooLong s.cfg v
    · rw [State.finish_value hfit, State.finish_value (hcfg ▸ hfit)]
      exact State.sameAnswer_complete (congrArg (·.set rd.toNat v) hregs) []
    · rw [State.finish_tooLong hfit, State.finish_tooLong (hcfg ▸ hfit)]
      exact State.sameAnswer_raise hregs _
  | flag b => exact State.sameAnswer_complete (s := s.writeT b) (u := u.writeT b) hregs []
  | text x => exact State.sameAnswer_complete hregs x
  | fault c => exact State.sameAnswer_raise hregs c

/-- The result of a compare is a bit for `T`. -/
theorem resultOf_of_isCompare {i : Instr} (h : i.isCompare = true) (s : State) : ∃ b, resultOf i s = .flag b := by
  rcases resultOf_kind i s with ⟨_, _, hno, _⟩ | ⟨_, _, hflag⟩ | ⟨_, hno, _⟩
  · simp [hno] at h
  · exact hflag
  · simp [hno] at h

/-- Settles O19: the result of a command comes from the registers and the configuration, and its end from that result. -/
theorem noCommandReadsTOrFsr : Obligations.NoCommandReadsTOrFsr := by
  intro i s b f
  have hres : resultOf i { s with t := b, fsr := f } = resultOf i s := by cases i <;> rfl
  rw [exec_eq_guarded, exec_eq_guarded, hres]
  cases hregs : s.hasRegs i.regs
  · rw [State.guarded_of_not_has hregs, State.guarded_of_not_has (s := { s with t := b, fsr := f }) hregs]
    exact ⟨_, _, _, _, rfl, rfl, rfl, State.respPort_raise .., State.respPort_raise .., rfl, rfl, rfl, nofun⟩
  · rw [State.guarded_of_has hregs, State.guarded_of_has (s := { s with t := b, fsr := f }) hregs]
    obtain ⟨hfile, r, q, hr, hq, hok, hcause, htxt⟩ :=
      State.finish_sameAnswer (s := s) (u := { s with t := b, fsr := f }) rfl rfl (resultOf i s)
    refine ⟨_, _, r, q, rfl, rfl, hfile, hr, hq, hok, hcause, htxt, fun hcmp _ => ?_⟩
    obtain ⟨bit, hbit⟩ := resultOf_of_isCompare hcmp s
    rw [hbit]
    rfl

end Sys2Proof.Machine
end

section
/-! The frames of 10_state.md sections 2 and 10: what a command of each kind leaves unchanged, and a command that names
an absent register. -/

namespace Sys2Proof.Machine

/-- Settles O24: the frame of every command checks the registers it names first. -/
theorem absentRegisterIsIllegal : Obligations.AbsentRegisterIsIllegal := by
  intro i s h
  rw [exec_eq_guarded, State.guarded_of_not_has h]

/-- A fault changes `FSR` in no bit but that of the cause its response reports, and never in bit 0. -/
theorem State.getLsbD_raise_fsr_of_response_ne (s : State) (c : Cause) {b : Nat}
    (h : b = 0 ∨ b ≠ (BitVec.ofNat 3 c.code).toNat) : (s.raise c).fsr.getLsbD b = s.fsr.getLsbD b := by
  refine s.getLsbD_raise_fsr_of_ne ?_
  rw [c.toNat_code_response] at h
  rcases h with rfl | h
  · exact Nat.ne_of_lt c.code_range.1
  · exact h

/-- Settles O21: a fault writes no register, and completion writes the destination alone; a command with a destination is
no compare and no rendering. -/
theorem valueCommandFrame : Obligations.ValueCommandFrame := by
  intro i rd s s' hdest h
  rcases exec_effect h with ⟨c, rfl⟩ | ⟨d, v, hd, -, -, -, rfl⟩ | ⟨b, hcmp, -, -⟩ | ⟨x, ⟨a, rfl | rfl⟩, -, -⟩
  · exact ⟨fun _ _ => rfl, rfl, rfl, rfl, rfl, rfl, _, rfl, fun _ => s.getLsbD_raise_fsr_of_response_ne c⟩
  · obtain rfl : rd = d := Option.some.inj (hdest.symm.trans hd)
    exact ⟨fun r hr => s.readReg_writeReg_ne v hr, by simp, rfl, rfl, rfl, rfl, _, rfl, fun _ _ => rfl⟩
  · simp [Instr.dest_of_isCompare hcmp] at hdest
  · cases hdest
  · cases hdest

/-- Settles O22: a compare names its bit for `T` as its result, so that its end writes nothing else; the one fault left
is that of an absent register. -/
theorem compareFrame : Obligations.CompareFrame := by
  intro i s s' hcmp h
  obtain ⟨b, hb⟩ := resultOf_of_isCompare hcmp s
  rcases exec_cases h with ⟨habsent, rfl⟩ | ⟨-, rfl⟩
  · exact ⟨rfl, rfl, rfl, rfl, fun hregs => by simp [habsent] at hregs, _, rfl⟩
  · rw [hb]
    exact ⟨rfl, rfl, rfl, rfl, fun _ => rfl, _, rfl⟩

/-- Settles O23: a rendering raises a fault or answers with its text; it has no destination and is no compare. -/
theorem renderFrame : Obligations.RenderFrame := by
  intro a i s s' hi h
  have hdest : i.dest = none := by rcases hi with rfl | rfl <;> rfl
  have hcmp : i.isCompare = false := by rcases hi with rfl | rfl <;> rfl
  rcases exec_effect h with ⟨c, rfl⟩ | ⟨d, v, hd, -, -, -, rfl⟩ | ⟨b, hb, -, -⟩ | ⟨x, -, -, rfl⟩
  · exact ⟨rfl, rfl, rfl, rfl, rfl, _, rfl, fun _ => s.getLsbD_raise_fsr_of_response_ne c⟩
  · simp [hdest] at hd
  · simp [hcmp] at hb
  · exact ⟨rfl, rfl, rfl, rfl, rfl, _, rfl, fun _ _ => rfl⟩

end Sys2Proof.Machine
end

section
/-! The family of 10_state.md and 40_datapath_units.md, on values: the length of a canonical magnitude, and the laws of
the units that normalize, extract, compare, pad and complement. -/

namespace Sys2Proof.Machine

/-! ### The length of a canonical magnitude (R12) -/

/-- A canonical magnitude is no longer than any width its number fits in. -/
theorem CanonicalMag.length_le {x : Bits} (hx : CanonicalMag x) {n : Nat} (hn : 1 ≤ n) (h : uval x < 2 ^ n) :
    x.length ≤ n := by
  rcases hx with rfl | hhead
  · exact hn
  · have hlt : x.length - 1 < n := (Nat.pow_lt_pow_iff_right one_lt_two).1 ((le_uval_of_head hhead).trans_lt h)
    omega

/-- A vector is longer than the exponent of any power of two its number reaches. -/
theorem lt_length_of_le_uval {x : Bits} {n : Nat} (h : 2 ^ n ≤ uval x) : n < x.length :=
  (Nat.pow_lt_pow_iff_right one_lt_two).1 (h.trans_lt (uval_lt x))

/-- One bit for 0 and 1, `floor(log2) + 1` bits above (R12). -/
theorem CanonicalMag.length_eq {x : Bits} (hx : CanonicalMag x) :
    x.length = if uval x ≤ 1 then 1 else Nat.log 2 (uval x) + 1 := by
  have hpos : 0 < x.length := List.length_pos_of_ne_nil hx.ne_nil
  split_ifs with hone
  · have := hx.length_le le_rfl (by omega : uval x < 2 ^ 1)
    omega
  · have hle := hx.length_le (Nat.le_add_left 1 _) (Nat.lt_pow_succ_log_self one_lt_two (uval x))
    have hlt := lt_length_of_le_uval (Nat.pow_log_le_self 2 (by omega : uval x ≠ 0))
    omega

/-- Settles O25: MAGX gives back every canonical value from its integer, and the length follows from the leading 1. -/
theorem canonicalRepresentation : Obligations.CanonicalRepresentation :=
  ⟨fun _ => magx_val, fun z => ⟨canonical_magx z, val_magx z⟩, fun _ hv => hv.1.length_eq⟩

/-! ### The normalizer and CANON (R60, R61) -/

/-- A vector denotes 0 exactly when all its bits are 0. -/
theorem uval_eq_zero_iff (x : Bits) : uval x = 0 ↔ ∀ b ∈ x, b = false := by
  induction x with
  | nil => simp
  | cons b x ih => cases b <;> simp [ih]

/-- `[0]` is the only canonical magnitude of 0. -/
theorem CanonicalMag.eq_zero_iff {x : Bits} (hx : CanonicalMag x) : x = [false] ↔ uval x = 0 :=
  ⟨fun h => h ▸ rfl, fun h => hx.eq_of_uval_eq (.inl rfl) h⟩

/-- Normalizing leaves a canonical magnitude as it is (R60). -/
theorem CanonicalMag.normMag_eq {x : Bits} (hx : CanonicalMag x) : normMag x = x :=
  (canonicalMag_normMag x).eq_of_uval_eq hx (uval_normMag x)

/-- Normalizing a vector never lengthens it. -/
theorem length_normMag_le {x : Bits} (hx : x ≠ []) : (normMag x).length ≤ x.length :=
  (canonicalMag_normMag x).length_le (List.length_pos_of_ne_nil hx) (uval_normMag x ▸ uval_lt x)

/-- Settles O26: NORM's output is the canonical magnitude of its input's number. -/
theorem normalizerLaws : Obligations.NormalizerLaws := by
  intro x _
  have hcan := canonicalMag_normMag x
  refine ⟨uval_normMag x, List.length_pos_of_ne_nil hcan.ne_nil, ?_, hcan.resolve_left, hcan.normMag_eq, ?_⟩
  · rw [hcan.eq_zero_iff, uval_normMag, uval_eq_zero_iff]
  · exact CanonicalMag.normMag_eq

/-- CANON's magnitude is the normalized one (R61). -/
@[simp] theorem mag_canon (s : Bit) (x : Bits) : (canon s x).mag = normMag x := by
  unfold canon
  split
  · rename_i hzero
    exact hzero.symm
  · rfl

/-- CANON keeps the sign of every number but 0 (R61). -/
theorem sign_canon (s : Bit) (x : Bits) : (canon s x).sign = (s && decide (uval x ≠ 0)) := by
  have hzero : normMag x = [false] ↔ uval x = 0 := by rw [(canonicalMag_normMag x).eq_zero_iff, uval_normMag]
  by_cases hx : uval x = 0
  · simp [canon, hzero.2 hx, hx]
  · simp [canon, mt hzero.1 hx, hx]

/-- Settles O27: CANON pairs the normalized magnitude with the given sign, which zero loses. -/
theorem canonLaws : Obligations.CanonLaws :=
  fun s x _ => ⟨canonical_canon s x, val_canon s x, mag_canon s x, sign_canon s x⟩

/-! ### The magnitude extractor (R62) -/

/-- An integer of absolute value below `2^n` has a magnitude of at most `n` bits. -/
theorem length_magx_le {a : Int} {n : Nat} (hn : 1 ≤ n) (h : a.natAbs < 2 ^ n) : (magx a).mag.length ≤ n :=
  (canonicalMag_magOfNat _).length_le hn (by rwa [uval_magOfNat])

/-- Settles O28: an integer above the minimum and within the native range has an absolute value below `2^(NATW-1)`. -/
theorem extractorLaws : Obligations.ExtractorLaws := by
  intro natw a hnatw hlow hhigh
  have habs : a.natAbs < 2 ^ (natw - 1) := by
    zify
    rw [abs_lt]
    omega
  exact ⟨val_magx a, canonical_magx a, length_magx_le (by omega) habs⟩

/-! ### The comparator (R63) -/

/-- Settles O29: MCMP is the comparison of the numbers, and canonical magnitudes of one number are equal. -/
theorem comparatorLaw : Obligations.ComparatorLaw := by
  intro a b ha hb
  have heq : a = b ↔ uval a = uval b := ⟨congrArg uval, ha.eq_of_uval_eq hb⟩
  rw [mcmp_eq_compare ha hb, heq]
  exact ⟨compare_lt_iff_lt, compare_gt_iff_gt, compare_eq_iff_eq, Iff.rfl⟩

/-! ### Padding and complement (R64 to R66) -/

@[simp] theorem length_notw (x : Bits) : (notw x).length = x.length := by simp [notw]

theorem uval_notw (x : Bits) : uval (notw x) = 2 ^ x.length - 1 - uval x := by
  have := uval_notw_add x
  omega

@[simp] theorem notw_notw (x : Bits) : notw (notw x) = x := by simp [notw, Function.comp_def]

/-- TCW negates modulo the width's power of two, as a natural number (R66). -/
theorem uval_tcw (x : Bits) : uval (tcw x) = (2 ^ x.length - uval x) % 2 ^ x.length := by
  have hnot : uval (notw x) + 1 = 2 ^ x.length - uval x := by
    have := uval_notw_add x
    omega
  rw [tcw, uval_bv, Nat.mod_mod, hnot]

/-- Negating twice modulo the width's power of two gives the vector back (R66). -/
theorem tcw_tcw (x : Bits) : tcw (tcw x) = x := by
  refine uval_inj (by simp) ?_
  have hx := uval_lt x
  rw [uval_tcw, length_tcw, uval_tcw]
  rcases Nat.eq_zero_or_pos (uval x) with hzero | hpos
  · simp [hzero]
  · rw [Nat.mod_eq_of_lt (by omega : 2 ^ x.length - uval x < 2 ^ x.length), Nat.sub_sub_self hx.le, Nat.mod_eq_of_lt hx]

theorem tcw_zeros (w : Nat) : tcw (zeros w) = zeros w :=
  uval_inj (by simp) (by simp [uval_tcw])

/-- Settles O30: each unit by its own law. -/
theorem paddingAndComplementLaws : Obligations.PaddingAndComplementLaws :=
  ⟨fun x w h => ⟨length_padw h, uval_padw x w⟩, fun x => ⟨length_notw x, uval_notw x, notw_notw x⟩,
    fun x => ⟨length_tcw x, uval_tcw x, tcw_tcw x⟩, tcw_zeros⟩

/-! ### The adder's parts (R67 to R71) -/

/-- Settles O31: by the induction over the positions that `uval_rca` makes. -/
theorem rippleCarryLaw : Obligations.RippleCarryLaw := fun _ _ h => ⟨length_rca h, uval_rca h⟩

/-- Settles O32: by the signs of the operands, and on opposite signs by the larger magnitude. -/
theorem signResolutionLaw : Obligations.SignResolutionLaw := fun _ _ => sres_iff

/-- Settles O33: with the sign of the sum resolved, the padded width leaves room for the sum's magnitude; on equal signs
the sign needs no comparison, whatever the leading zeros. -/
theorem adderIsExact : Obligations.AdderIsExact :=
  ⟨fun _ _ => addsm_eq_magx, fun _ _ hsign _ _ => addsm_eq_magx_of_sign_eq hsign⟩

/-- A leading 1 would give a vector at least half its width's power of two. -/
theorem head?_eq_false_of_uval_lt {x : Bits} (hx : x ≠ []) (h : uval x < 2 ^ (x.length - 1)) : x.head? = some false := by
  obtain ⟨b, y, rfl⟩ := List.exists_cons_of_ne_nil hx
  cases b
  · rfl
  · exact absurd (le_uval_of_head rfl) h.not_ge

/-- Under the sign resolved in advance the adder's magnitude is exactly that of the sum of canonical operands (R70). -/
theorem uval_addMagnitude {a b : BigVal} (ha : a.canonical) (hb : b.canonical) :
    uval (addMagnitude a b) = (a.val + b.val).natAbs := by
  have hsign := sres_iff ha hb
  rw [← val_addMagnitude (fun h => (hsign.1 h).le) (fun h => by simpa [h] using hsign), natAbs_val]

/-- Settles O34: the sum needs one bit more than the longer magnitude, so the second guard bit is 0, and CANON does not
see a leading 0. -/
theorem topGuardBitIsZero : Obligations.TopGuardBitIsZero := by
  intro a b ha hb
  have hlen := length_addMagnitude a b
  have hne : addMagnitude a b ≠ [] := List.ne_nil_of_length_pos (by rw [hlen, addWidth]; omega)
  have hhead : (addMagnitude a b).head? = some false := by
    refine head?_eq_false_of_uval_lt hne ?_
    rw [uval_addMagnitude ha hb, hlen]
    exact natAbs_val_add_lt a b
  refine ⟨hlen, hhead, ?_⟩
  obtain ⟨top, rest, hsplit⟩ := List.exists_cons_of_ne_nil hne
  obtain rfl : top = false := by simpa [hsplit] using hhead
  rw [addsm, canon_eq_magx, canon_eq_magx, hsplit]
  simp [BigVal.val]

/-! ### The bitwise-logic unit and the shifts (R72 to R74) -/

/-- A bit behind a vector is the least significant bit of the number. -/
theorem uval_append_singleton (x : Bits) (b : Bit) : uval (x ++ [b]) = Nat.bit b (uval x) := by
  rw [uval_append, Nat.bit_val]
  cases b <;> simp [mul_comm]

/-- Vectors of one length combined bit by bit are their numbers combined bit by bit. -/
theorem uval_zipWith {f : Bit → Bit → Bit} (hf : f false false = false) {x y : Bits} (h : x.length = y.length) :
    uval (List.zipWith f x y) = Nat.bitwise f (uval x) (uval y) := by
  induction x using List.reverseRecOn generalizing y with
  | nil =>
    obtain rfl := List.length_eq_zero_iff.1 h.symm
    simp
  | append_singleton x a ih =>
    rcases List.eq_nil_or_concat' y with rfl | ⟨y, b, rfl⟩
    · simp at h
    · have hlen : x.length = y.length := by simpa using h
      rw [List.zipWith_append hlen, List.zipWith_cons_cons, List.zipWith_nil_left, uval_append_singleton,
        uval_append_singleton, uval_append_singleton, ih hlen, Nat.bitwise_bit hf]

/-- LOGICW has the longer length (R72). -/
theorem length_logicw (op : LogicOp) (a b : Bits) : (logicw op a b).length = max a.length b.length := by
  simp [logicw, length_padw]

/-- LOGICW is the operation of its truth table on the two numbers (R72). -/
theorem uval_logicw (op : LogicOp) (a b : Bits) :
    uval (logicw op a b) = Nat.bitwise (logicBit op) (uval a) (uval b) := by
  have hop : logicBit op false false = false := by cases op <;> rfl
  have hlen : (padw a (max a.length b.length)).length = (padw b (max a.length b.length)).length := by
    rw [length_padw (le_max_left ..), length_padw (le_max_right ..)]
  rw [logicw, uval_zipWith hop hlen, uval_padw, uval_padw]

/-- Settles O35: the operations of `Nat` are the bitwise functions of the same truth tables. -/
theorem logicUnitLaw : Obligations.LogicUnitLaw :=
  fun a b => ⟨fun op => length_logicw op a b, uval_logicw .and a b, uval_logicw .or a b, uval_logicw .xor a b⟩

theorem length_appendz (x : Bits) (n : Nat) : (appendz x n).length = x.length + n := by simp [appendz]

theorem length_droplsb (x : Bits) (n : Nat) : (droplsb x n).length = x.length - n := by simp [droplsb]

/-- Dropping low bits divides by a power of two (R74): what is dropped is below it. -/
theorem uval_droplsb {x : Bits} {n : Nat} (h : n ≤ x.length) : uval (droplsb x n) = uval x / 2 ^ n := by
  have hdropped : (x.drop (x.length - n)).length = n := by rw [List.length_drop]; omega
  have hlow : uval (x.drop (x.length - n)) < 2 ^ n := (uval_lt _).trans_eq (congrArg _ hdropped)
  have hsplit : uval x = uval (droplsb x n) * 2 ^ n + uval (x.drop (x.length - n)) := by
    conv_lhs => rw [← List.take_append_drop (x.length - n) x, uval_append, hdropped]
    rfl
  rw [hsplit, mul_comm, Nat.mul_add_div (Nat.two_pow_pos n), Nat.div_eq_of_lt hlow, Nat.add_zero]

/-- Settles O36: appended zeros weigh nothing, and dropped bits are the remainder. -/
theorem shiftPrimitiveLaws : Obligations.ShiftPrimitiveLaws :=
  fun x n => ⟨uval_appendz x n, length_appendz x n, fun h => ⟨uval_droplsb h, length_droplsb x n⟩⟩

end Sys2Proof.Machine
end

section
/-! The families of 42_add_sub.md, 43_multiply.md, 45_unary.md, 46_compare.md and 48_shift.md, on values: each rule is the
canonical representation of an operation on the integers, and the algebra follows from that. -/

namespace Sys2Proof.Machine

/-! ### Negation and subtraction (R96, R97, R110) -/

theorem val_mk_not (s : Bit) (x : Bits) : BigVal.val ⟨!s, x⟩ = -BigVal.val ⟨s, x⟩ := by
  cases s <;> simp

/-- Canonical values of one integer are the same representation (R12). -/
theorem eq_of_val_eq {a b : BigVal} (ha : a.canonical) (hb : b.canonical) (h : a.val = b.val) : a = b := by
  rw [← magx_val ha, h, magx_val hb]

/-- NEG is exact (R110). -/
theorem negv_eq_magx (v : BigVal) : negv v = magx (-v.val) := by
  rw [negv, canon_eq_magx, val_mk_not]

/-- SUB is exact (R96): CANON makes the negated subtrahend canonical. -/
theorem subsm_eq_magx {a b : BigVal} (ha : a.canonical) : subsm a b = magx (a.val - b.val) := by
  rw [subsm, addsm_eq_magx ha (canonical_canon _ _), val_canon, val_mk_not, sub_eq_add_neg]

theorem val_zero : BigVal.zero.val = 0 := rfl

theorem val_one : BigVal.one.val = 1 := rfl

/-- Settles O38: the laws of the integers, through the exactness of ADDSM. -/
theorem additionLaws : Obligations.AdditionLaws := by
  intro a b c ha hb hc
  refine ⟨?_, ?_, ?_, ?_, ?_⟩
  · rw [addsm_eq_magx ha hb, addsm_eq_magx hb ha, add_comm]
  · rw [addsm_eq_magx ha hb, addsm_eq_magx hb hc, addsm_eq_magx (canonical_magx _) hc,
      addsm_eq_magx ha (canonical_magx _), val_magx, val_magx, add_assoc]
  · rw [addsm_eq_magx ha canonical_zero, val_zero, add_zero, magx_val ha]
  · rw [subsm_eq_magx ha, sub_self]
    rfl
  · rw [subsm_eq_magx ha, val_magx]

/-! ### Multiplication (R102) -/

/-- Settles O37: the laws of the integers, through the exactness of MULSM, ADDSM and NEG. -/
theorem multiplierIsExact : Obligations.MultiplierIsExact := by
  refine ⟨fun a b _ _ => mulsm_eq_magx a b, fun a b c ha hb hc => ⟨?_, ?_, ?_, ?_, ?_⟩⟩
  · rw [mulsm_eq_magx, mulsm_eq_magx, mul_comm]
  · rw [mulsm_eq_magx, val_one, mul_one, magx_val ha]
  · rw [mulsm_eq_magx, val_zero, mul_zero]
    rfl
  · rw [mulsm_eq_magx, mulsm_eq_magx, negv_eq_magx, negv_eq_magx, val_magx, val_magx, neg_mul]
  · rw [mulsm_eq_magx, mulsm_eq_magx, mulsm_eq_magx, addsm_eq_magx hb hc,
      addsm_eq_magx (canonical_magx _) (canonical_magx _), val_magx, val_magx, val_magx, mul_add]

/-! ### NOT (R113, R114) -/

theorem canonical_notv (v : BigVal) : (notv v).canonical := canonical_canon _ _

/-- NOT's result is no longer than its source. -/
theorem length_notv_le {v : BigVal} (hv : v.canonical) : (notv v).mag.length ≤ v.mag.length := by
  have hne : notw v.mag ≠ [] := by simpa [notw] using hv.1.ne_nil
  simpa [notv] using length_normMag_le hne

/-- The leading 1 of a magnitude becomes a leading 0, which the normalizer strips where a bit is left. -/
theorem length_notv_lt {v : BigVal} (hv : v.canonical) (hlong : 2 ≤ v.mag.length) :
    (notv v).mag.length < v.mag.length := by
  have hhead : v.mag.head? = some true := hv.1.resolve_left fun h => by simp [h] at hlong
  have hsmall : uval (notw v.mag) < 2 ^ (v.mag.length - 1) := by
    have hhalf : 2 ^ v.mag.length = 2 * 2 ^ (v.mag.length - 1) := (mul_pow_sub_one (by omega) 2).symm
    have := le_uval_of_head hhead
    have := uval_notw_add v.mag
    omega
  have hle : (notv v).mag.length ≤ v.mag.length - 1 := by
    simpa [notv] using (canonicalMag_normMag (notw v.mag)).length_le (by omega) (by rwa [uval_normMag])
  omega

/-- The canonical values of one bit are 0, 1 and -1. -/
theorem eq_of_length_eq_one {v : BigVal} (hv : v.canonical) (h : v.mag.length = 1) :
    v = ⟨false, [false]⟩ ∨ v = ⟨false, [true]⟩ ∨ v = ⟨true, [true]⟩ := by
  obtain ⟨s, x⟩ := v
  obtain ⟨b, rfl⟩ := List.length_eq_one_iff.1 h
  revert s b
  decide

/-- Settles O47: NOT shortens every magnitude of two or more bits, so a double NOT can give back only the one-bit
values, of which it does for `+[0]` and `-[1]`. -/
theorem notIsNoInvolution : Obligations.NotIsNoInvolution := by
  refine ⟨fun v hv => ⟨fun h => ?_, ?_⟩, notw_notw⟩
  · by_cases hlong : 2 ≤ v.mag.length
    · have hshort := (length_notv_le (canonical_notv v)).trans_lt (length_notv_lt hv hlong)
      rw [h] at hshort
      omega
    · have hpos := List.length_pos_of_ne_nil hv.1.ne_nil
      rcases eq_of_length_eq_one hv (by omega) with rfl | rfl | rfl
      · exact .inl rfl
      · revert h
        decide
      · exact .inr rfl
  · rintro (rfl | rfl) <;> decide

/-! ### The compares (R120, R121, R128) -/

/-- EQV is equality of the representations. -/
theorem eqv_iff_eq (a b : BigVal) : eqv a b = true ↔ a = b := by
  cases a
  cases b
  simp [eqv]

/-- EQV is equality of the integers on canonical values (R120). -/
theorem eqv_iff {a b : BigVal} (ha : a.canonical) (hb : b.canonical) : eqv a b = true ↔ a.val = b.val := by
  rw [eqv_iff_eq]
  exact ⟨congrArg BigVal.val, eq_of_val_eq ha hb⟩

/-- LTV is the order of the integers on canonical values (R121). -/
theorem ltv_iff {a b : BigVal} (ha : a.canonical) (hb : b.canonical) : ltv a b = true ↔ a.val < b.val := by
  have hcmp := mcmp_eq_compare ha.1 hb.1
  cases hsa : a.sign <;> cases hsb : b.sign
  case false.false => simp [ltv, hsa, hsb, hcmp, val_nonneg, compare_lt_iff_lt]
  case true.true => simp [ltv, hsa, hsb, hcmp, val_negative, compare_gt_iff_gt]
  case false.true => simp [ltv, hsa, hsb, val_nonneg hsa, val_negative hsb]
  case true.false =>
    have hpos := uval_pos_of_canonical ha hsa
    have hlt : (-uval a.mag : ℤ) < uval b.mag := by omega
    simpa [ltv, hsa, hsb, val_negative hsa, val_nonneg hsb] using hlt

/-- Settles O49: the trichotomy of the integers. -/
theorem orderingIsTotal : Obligations.OrderingIsTotal := by
  intro a b ha hb
  simp only [← Bool.not_eq_true, ltv_iff ha hb, ltv_iff hb ha, eqv_iff ha hb]
  omega

/-! ### The shifts (R136 to R138) -/

/-- SHL multiplies by a power of two (R136). -/
theorem shlv_eq_magx (v : BigVal) (n : Nat) : shlv v n = magx (v.val * 2 ^ n) := by
  rw [shlv, canon_eq_magx]
  cases hs : v.sign <;> simp [BigVal.val, hs]

/-- A magnitude divided by a power of two, under its sign, is the integer divided toward zero. -/
theorem val_of_uval_div {v : BigVal} {x : Bits} {n : Nat} (h : uval x = uval v.mag / 2 ^ n) :
    BigVal.val ⟨v.sign, x⟩ = v.val.tdiv (2 ^ n) := by
  have hdiv : (uval v.mag : ℤ).tdiv (2 ^ n) = uval x := by
    rw [h]
    push_cast
    exact Int.tdiv_eq_ediv_of_nonneg (Int.natCast_nonneg _)
  cases hs : v.sign
  · rw [val_nonneg hs, val_mk_false, hdiv]
  · rw [val_negative hs, val_mk_true, Int.neg_tdiv, hdiv]

/-- SHR up to the length divides by a power of two toward zero (R137). -/
theorem shrv_eq_magx {v : BigVal} {n : Nat} (h : n ≤ v.mag.length) : shrv v n = .ok (magx (v.val.tdiv (2 ^ n))) := by
  rw [shrv, if_neg h.not_gt]
  split_ifs with hall
  · have hzero : uval [] = uval v.mag / 2 ^ n := (Nat.div_eq_of_lt (hall ▸ uval_lt v.mag)).symm
    rw [← val_of_uval_div hzero, ← canon_eq_magx]
    rfl
  · rw [canon_eq_magx, val_of_uval_div (uval_droplsb h)]

/-- SHR beyond the length faults (R137). -/
theorem shrv_of_length_lt {v : BigVal} {n : Nat} (h : v.mag.length < n) : shrv v n = .error .shiftRange := if_pos h

/-- A right shift undoes a left shift whose result is long enough for it. -/
theorem shrv_shlv {v : BigVal} (hv : v.canonical) {n : Nat} (h : n ≤ (shlv v n).mag.length) :
    shrv (shlv v n) n = .ok v := by
  rw [shrv_eq_magx h, shlv_eq_magx, val_magx, Int.mul_tdiv_cancel _ (by positivity), magx_val hv]

/-- Settles O53: the left shift of a non-zero value is longer than `n`; that of zero is one bit. -/
theorem shiftInverse : Obligations.ShiftInverse := by
  intro v n hv
  have hzero : shlv BigVal.zero n = BigVal.zero := by
    rw [shlv_eq_magx, val_zero, zero_mul]
    rfl
  refine ⟨fun hne => shrv_shlv hv ?_, ?_, ?_⟩
  · have hpos : 0 < uval v.mag := by
      rw [← natAbs_val, Int.natAbs_pos]
      exact fun h => hne (eq_of_val_eq hv canonical_zero (h.trans val_zero.symm))
    have hmag : 2 ^ n ≤ uval (shlv v n).mag := by
      rw [← natAbs_val, shlv_eq_magx, val_magx, Int.natAbs_mul, natAbs_val, Int.natAbs_pow]
      exact Nat.le_mul_of_pos_left _ hpos
    exact (lt_length_of_le_uval hmag).le
  · rintro rfl hn
    exact shrv_shlv hv (by rwa [hzero])
  · rintro rfl hn
    rw [hzero]
    exact shrv_of_length_lt hn

end Sys2Proof.Machine
end

section
/-! The commands of 41_construct.md to 48_shift.md: the words of the remaining formats, a command that ends with its value
or its bit, and each command's rule as the operation on the integers. -/

namespace Sys2Proof

/-! ### The words of the formats (R42, R49) -/

/-- The word of a row that uses `rd` alone, of format R1 or RI. -/
theorem decode_assemble_rd {r : Row} (hr : r ∈ opcodeTable) (hf : r.format = .r1 ∨ r.format = .ri) (c : Config)
    {rd : Reg} (imm : Nat) (hregs : (r.build rd 0 0 (sampleImm c imm)).regsExist c.nreg = true) :
    decode c (r.matchWord ||| (rd.setWidth 32 <<< 20)) imm = .ok (r.build rd 0 0 (sampleImm c imm)) := by
  have hword : r.matchWord ||| (rd.setWidth 32 <<< 20) = assemble r.opcode rd 0 0 := by simp [assemble, Row.matchWord]
  have hused : r.format.usesRd = true := by rcases hf with hf | hf <;> rw [hf] <;> rfl
  rw [hword]
  exact decode_assemble hr c imm (by simp [hused]) (fun _ => rfl) (fun _ => rfl) hregs

/-- The word of a row that uses `rd` and `rs1`, of format R2 or R2I. -/
theorem decode_assemble_rd_rs1 {r : Row} (hr : r ∈ opcodeTable) (hf : r.format = .r2 ∨ r.format = .r2i) (c : Config)
    {rd a : Reg} (imm : Nat) (hregs : (r.build rd a 0 (sampleImm c imm)).regsExist c.nreg = true) :
    decode c (r.matchWord ||| (rd.setWidth 32 <<< 20) ||| (a.setWidth 32 <<< 16)) imm =
      .ok (r.build rd a 0 (sampleImm c imm)) := by
  have hword : r.matchWord ||| (rd.setWidth 32 <<< 20) ||| (a.setWidth 32 <<< 16) = assemble r.opcode rd a 0 := by
    simp [assemble, Row.matchWord]
  have hused : r.format.usesRd = true ∧ r.format.usesRs1 = true := by rcases hf with hf | hf <;> rw [hf] <;> decide
  rw [hword]
  exact decode_assemble hr c imm (by simp [hused.1]) (by simp [hused.2]) (fun _ => rfl) hregs

/-- The word of a row of format C2. -/
theorem decode_assemble_c2 {r : Row} (hr : r ∈ opcodeTable) (hf : r.format = .c2) (c : Config) {a b : Reg}
    (imm : Nat) (hregs : (r.build 0 a b (sampleImm c imm)).regsExist c.nreg = true) :
    decode c (r.matchWord ||| (a.setWidth 32 <<< 16) ||| (b.setWidth 32 <<< 12)) imm =
      .ok (r.build 0 a b (sampleImm c imm)) := by
  have hword : r.matchWord ||| (a.setWidth 32 <<< 16) ||| (b.setWidth 32 <<< 12) = assemble r.opcode 0 a b := by
    simp [assemble, Row.matchWord]
  rw [hword]
  exact decode_assemble hr c imm (fun _ => rfl) (by simp [hf, Format.usesRs1]) (by simp [hf, Format.usesRs2]) hregs

end Sys2Proof

namespace Sys2Proof.Machine

/-! ### FROMINT (R91) -/

/-- `sint` reads a number the port can carry as two's complement (00_scope.md R7). -/
theorem sint_of_lt {natw imm : Nat} (hnatw : 1 ≤ natw) (h : imm < 2 ^ natw) :
    sint natw imm = if imm < 2 ^ (natw - 1) then (imm : Int) else imm - 2 ^ natw := by
  have hhalf : 2 * 2 ^ (natw - 1) = 2 ^ natw := mul_pow_sub_one (by omega) 2
  have hcond : 2 * imm < 2 ^ natw ↔ imm < 2 ^ (natw - 1) := by omega
  rw [sint, BitVec.toInt_eq_toNat_cond, BitVec.toNat_ofNat, Nat.mod_eq_of_lt h]
  simp [hcond]

theorem fromNative_minNative (natw : Nat) : fromNative natw (minNative natw) = .error .range := if_pos rfl

theorem fromNative_of_ne {natw : Nat} {a : Int} (h : a ≠ minNative natw) : fromNative natw a = .ok (magx a) := if_neg h

theorem resultOf_fromint_min {s : State} {imm : Nat} (h : sint s.cfg.natw imm = minNative s.cfg.natw) (rd : Reg) :
    resultOf (.fromint rd imm) s = .fault .range := by
  rw [resultOf, h, fromNative_minNative, valueOrFault]

theorem resultOf_fromint {s : State} {imm : Nat} (h : sint s.cfg.natw imm ≠ minNative s.cfg.natw) (rd : Reg) :
    resultOf (.fromint rd imm) s = .value rd (magx (sint s.cfg.natw imm)) := by
  rw [resultOf, fromNative_of_ne h, valueOrFault]

/-- Settles O40: the word is that of the row of FROMINT; its rule faults on the minimum and otherwise yields what MAGX
gives. -/
theorem fromintCommand : Obligations.FromintCommand := by
  intro s rd imm hcfg hregs
  have hrow : (⟨0x02#8, .ri, fun rd _ _ n => .fromint rd n⟩ : Row) ∈ opcodeTable := List.mem_of_getElem? (i := 1) rfl
  have ⟨hnatw, _⟩ := hcfg
  refine ⟨fun himm => ⟨?_, sint_of_lt (by omega) himm⟩, fun hmin => ?_, fun hne => ?_⟩
  · have hword := decode_assemble_rd hrow (.inr rfl) s.cfg (rd := rd) imm hregs
    rwa [sampleImm_of_lt himm] at hword
  · exact exec_fault hregs (resultOf_fromint_min hmin rd)
  · have hres := resultOf_fromint hne rd
    exact ⟨exec_capacity hregs hres, fun hfit => ⟨exec_value hregs hres hfit, val_magx _⟩⟩

/-! ### SUB, INC and DEC (R96, R105, R106) -/

theorem resultOf_sub {s : State} (h : s.Inv) (rd rs1 rs2 : Reg) :
    resultOf (.sub rd rs1 rs2) s = .value rd (magx ((s.readReg rs1).val - (s.readReg rs2).val)) := by
  rw [resultOf, subsm_eq_magx (h.canonical_read rs1)]

theorem resultOf_inc {s : State} (h : s.Inv) (rd : Reg) :
    resultOf (.inc rd) s = .value rd (magx ((s.readReg rd).val + 1)) := by
  have hone : BigVal.one.canonical := by decide
  rw [resultOf, addsm_eq_magx (h.canonical_read rd) hone, val_one]

theorem resultOf_dec {s : State} (h : s.Inv) (rd : Reg) :
    resultOf (.dec rd) s = .value rd (magx ((s.readReg rd).val - 1)) := by
  have hone : BigVal.canonical ⟨true, [true]⟩ := by decide
  have hval : BigVal.val ⟨true, [true]⟩ = -1 := rfl
  rw [resultOf, addsm_eq_magx (h.canonical_read rd) hone, hval, sub_eq_add_neg]

/-- Settles O42: the word is that of the row of SUB, and SUB's rule is exact; the frame writes it or raises CAPACITY. -/
theorem subCommand : Obligations.SubCommand := by
  intro s rd rs1 rs2 hinv hregs
  have hrow : (⟨0x11#8, .r3, fun rd a b _ => .sub rd a b⟩ : Row) ∈ opcodeTable := List.mem_of_getElem? (i := 3) rfl
  have hres := resultOf_sub hinv rd rs1 rs2
  exact ⟨fun imm => decode_assemble_r3 hrow rfl s.cfg imm hregs, exec_value hregs hres, exec_capacity hregs hres⟩

/-- Settles O44: the words are those of the rows of INC and DEC, which add the constants 1 and -1 exactly. -/
theorem incDecCommands : Obligations.IncDecCommands := by
  intro s rd hinv hregs
  have hinc : (⟨0x20#8, .r1, fun rd _ _ _ => .inc rd⟩ : Row) ∈ opcodeTable := List.mem_of_getElem? (i := 5) rfl
  have hdec : (⟨0x21#8, .r1, fun rd _ _ _ => .dec rd⟩ : Row) ∈ opcodeTable := List.mem_of_getElem? (i := 6) rfl
  have hup := resultOf_inc hinv rd
  have hdown := resultOf_dec hinv rd
  refine ⟨fun imm => ⟨?_, ?_⟩, exec_value hregs hup, exec_capacity hregs hup, exec_value hregs hdown,
    exec_capacity hregs hdown⟩
  · exact decode_assemble_rd hinc (.inl rfl) s.cfg imm hregs
  · exact decode_assemble_rd hdec (.inl rfl) s.cfg imm hregs

/-! ### NEG, MOV, ABS and NOT (R110 to R113) -/

/-- NEG keeps the length of a canonical magnitude. -/
theorem length_negv {v : BigVal} (hv : v.canonical) : (negv v).mag.length = v.mag.length := by
  rw [negv, mag_canon, hv.1.normMag_eq]

/-- ABS is the absolute value (R112). -/
theorem absv_eq_magx {v : BigVal} (hv : v.canonical) : absv v = magx |v.val| := by
  have hcan : (absv v).canonical := ⟨hv.1, fun _ => rfl⟩
  have hval : (absv v).val = |v.val| := by rw [absv, val_mk_false, Int.abs_eq_natAbs, natAbs_val]
  rw [← hval, magx_val hcan]

/-- NOT is the complement over the magnitude's own length, with the sign flipped (R113). -/
theorem notv_eq_magx {v : BigVal} (hv : v.canonical) :
    notv v = magx (if 0 ≤ v.val then -(2 ^ v.mag.length - 1 - v.val) else 2 ^ v.mag.length - 1 - |v.val|) := by
  have hnot : (uval (notw v.mag) : ℤ) = 2 ^ v.mag.length - 1 - uval v.mag := by
    have := uval_notw_add v.mag
    zify at this
    omega
  have hsign : 0 ≤ v.val ↔ v.sign = false := by rw [← not_lt, val_neg_iff hv, Bool.not_eq_true]
  simp only [notv, canon_eq_magx, val_mk_not, hsign, Int.abs_eq_natAbs, natAbs_val]
  cases hs : v.sign
  · simp [hnot, val_nonneg hs]
  · simp [hnot]

/-- Settles O45: the words are those of the rows of NEG, MOV and ABS; none of the results is longer than the source. -/
theorem negMovAbsCommands : Obligations.NegMovAbsCommands := by
  intro s rd rs1 hinv hregs
  have hneg : (⟨0x28#8, .r2, fun rd a _ _ => .neg rd a⟩ : Row) ∈ opcodeTable := List.mem_of_getElem? (i := 7) rfl
  have hmov : (⟨0x29#8, .r2, fun rd a _ _ => .mov rd a⟩ : Row) ∈ opcodeTable := List.mem_of_getElem? (i := 8) rfl
  have habs : (⟨0x2A#8, .r2, fun rd a _ _ => .abs rd a⟩ : Row) ∈ opcodeTable := List.mem_of_getElem? (i := 9) rfl
  obtain ⟨hcan, hfit⟩ := hinv.read rs1
  refine ⟨fun imm => ⟨?_, ?_, ?_⟩, ?_, exec_value hregs rfl hfit, ?_⟩
  · exact decode_assemble_rd_rs1 hneg (.inl rfl) s.cfg imm hregs
  · exact decode_assemble_rd_rs1 hmov (.inl rfl) s.cfg imm hregs
  · exact decode_assemble_rd_rs1 habs (.inl rfl) s.cfg imm hregs
  · rw [← negv_eq_magx]
    exact exec_value hregs rfl (tooLong_mono s.cfg (length_negv hcan).le hfit)
  · rw [← absv_eq_magx hcan]
    exact exec_value hregs rfl (tooLong_mono s.cfg le_rfl hfit)

/-- Settles O46: the word is that of the row of NOT, whose result is no longer than the source. -/
theorem notCommand : Obligations.NotCommand := by
  intro s rd rs1 hinv hregs
  have hrow : (⟨0x2B#8, .r2, fun rd a _ _ => .not rd a⟩ : Row) ∈ opcodeTable := List.mem_of_getElem? (i := 10) rfl
  obtain ⟨hcan, hfit⟩ := hinv.read rs1
  refine ⟨fun imm => decode_assemble_rd_rs1 hrow (.inl rfl) s.cfg imm hregs, ?_⟩
  rw [← notv_eq_magx hcan]
  exact exec_value hregs rfl (tooLong_mono s.cfg (length_notv_le hcan) hfit)

/-! ### The compares (R122 to R127) -/

/-- A command whose registers exist and whose result is a bit leaves it in `T` and completes (10_state.md R24). -/
theorem exec_flag {i : Instr} {s : State} {b : Bit} (hregs : s.hasRegs i.regs = true) (hres : resultOf i s = .flag b) :
    exec i s = .next ((s.writeT b).complete []) := by
  rw [exec_eq_guarded, State.guarded_of_has hregs, hres, State.finish]

theorem eqv_eq_decide {a b : BigVal} (ha : a.canonical) (hb : b.canonical) : eqv a b = decide (a.val = b.val) := by
  rw [Bool.eq_iff_iff, eqv_iff ha hb, decide_eq_true_iff]

theorem ltv_eq_decide {a b : BigVal} (ha : a.canonical) (hb : b.canonical) : ltv a b = decide (a.val < b.val) := by
  rw [Bool.eq_iff_iff, ltv_iff ha hb, decide_eq_true_iff]

/-- The words of the six rows of the compares, in the order of their opcodes. -/
theorem decode_compare_rows (c : Config) {a b : Reg} (imm : Nat) (ha : a.toNat < c.nreg) (hb : b.toNat < c.nreg) :
    ∀ r ∈ rowsUnaryCompare.drop 4,
      decode c (r.matchWord ||| (a.setWidth 32 <<< 16) ||| (b.setWidth 32 <<< 12)) imm =
        .ok (r.build 0 a b (sampleImm c imm)) := by
  intro r hr
  have hrow : r ∈ opcodeTable := by simp [opcodeTable, List.mem_of_mem_drop hr]
  have hformat : ∀ r ∈ rowsUnaryCompare.drop 4, r.format = .c2 := by simp [rowsUnaryCompare]
  refine decode_assemble_c2 hrow (hformat r hr) c imm ((Row.regsExist_build _ _ _ _ _ r hrow).2 ?_)
  simp [hformat r hr, Format.usesRd, ha, hb]

/-- Settles O48: the words are those of the six rows, and each relation is EQV, LTV or a combination of them, which are
the equality and the order of the integers. -/
theorem compareCommands : Obligations.CompareCommands := by
  intro s rs1 rs2 hinv hregs
  have hexist := (s.hasRegs_iff _).1 hregs
  have h1 := hinv.canonical_read rs1
  have h2 := hinv.canonical_read rs2
  refine ⟨fun imm => ?_, exec_flag hregs ?_, exec_flag hregs ?_, exec_flag hregs ?_, exec_flag hregs ?_,
    exec_flag hregs ?_, exec_flag hregs ?_⟩
  · exact List.map_congr_left (l := rowsUnaryCompare.drop 4)
      (decode_compare_rows s.cfg imm (hexist rs1 (by simp)) (hexist rs2 (by simp)))
  · rw [resultOf, flagEq, eqv_eq_decide h1 h2]
  · rw [resultOf, flagNe, eqv_eq_decide h1 h2, decide_not]
  · rw [resultOf, flagLt, ltv_eq_decide h1 h2]
  · rw [resultOf, flagGt, ltv_eq_decide h2 h1]
  · rw [resultOf, flagLe, ltv_eq_decide h1 h2, eqv_eq_decide h1 h2, ← Bool.decide_or]
    simp only [le_iff_lt_or_eq]
  · rw [resultOf, flagGe, ltv_eq_decide h1 h2, ← decide_not]
    simp only [not_lt, ge_iff_le]

/-! ### AND, OR and XOR (R130 to R133) -/

theorem val_mk_eq_mul (s : Bit) (x : Bits) : BigVal.val ⟨s, x⟩ = (if s then -1 else 1) * uval x := by
  cases s <;> simp

/-- The bitwise rule: the receiver's sign on the operation of the two absolute values (R133). -/
theorem bitwise_eq_magx (op : LogicOp) (a b : BigVal) :
    bitwise op a b =
      magx ((if a.sign then -1 else 1) * (Nat.bitwise (logicBit op) a.val.natAbs b.val.natAbs : Nat)) := by
  rw [bitwise, canon_eq_magx, val_mk_eq_mul, uval_logicw, natAbs_val, natAbs_val]

/-- The bitwise rule's result is no longer than the longer operand, so it is within a bound both are within (R133). -/
theorem tooLong_bitwise (c : Config) (op : LogicOp) {a b : BigVal} (hcan : a.canonical) (ha : tooLong c a = false)
    (hb : tooLong c b = false) : tooLong c (bitwise op a b) = false := by
  have hne : logicw op a.mag b.mag ≠ [] := by
    refine List.ne_nil_of_length_pos ?_
    rw [length_logicw]
    exact (List.length_pos_of_ne_nil hcan.1.ne_nil).trans_le (le_max_left ..)
  have hlen : (bitwise op a b).mag.length ≤ max a.mag.length b.mag.length := by
    rw [bitwise, mag_canon, ← length_logicw op]
    exact length_normMag_le hne
  rcases le_total a.mag.length b.mag.length with hab | hba
  · exact tooLong_mono c (hlen.trans_eq (max_eq_right hab)) hb
  · exact tooLong_mono c (hlen.trans_eq (max_eq_left hba)) ha

/-- A command of the bitwise rule completes with the operation on the integers. -/
theorem exec_bitwise {i : Instr} {s : State} {rd rs1 rs2 : Reg} {op : LogicOp} (hinv : s.Inv)
    (hregs : s.hasRegs i.regs = true)
    (hres : resultOf i s = .value rd (bitwise op (s.readReg rs1) (s.readReg rs2))) :
    exec i s = .next ((s.writeReg rd (magx ((if (s.readReg rs1).sign then -1 else 1) *
      (Nat.bitwise (logicBit op) (s.readReg rs1).val.natAbs (s.readReg rs2).val.natAbs : Nat)))).complete []) := by
  rw [← bitwise_eq_magx]
  exact exec_value hregs hres
    (tooLong_bitwise s.cfg op (hinv.canonical_read rs1) (hinv.fits_read rs1) (hinv.fits_read rs2))

/-- The words of the three rows of the bitwise commands, in the order of their opcodes. -/
theorem decode_bitwise_rows (c : Config) {rd a b : Reg} (imm : Nat) (hd : rd.toNat < c.nreg) (ha : a.toNat < c.nreg)
    (hb : b.toNat < c.nreg) :
    ∀ r ∈ rowsBitShiftRender.take 3,
      decode c (r.matchWord ||| (rd.setWidth 32 <<< 20) ||| (a.setWidth 32 <<< 16) ||| (b.setWidth 32 <<< 12)) imm =
        .ok (r.build rd a b (sampleImm c imm)) := by
  intro r hr
  have hrow : r ∈ opcodeTable := by simp [opcodeTable, List.mem_of_mem_take hr]
  have hformat : ∀ r ∈ rowsBitShiftRender.take 3, r.format = .r3 := by simp [rowsBitShiftRender]
  refine decode_assemble_r3 hrow (hformat r hr) c imm ((Row.regsExist_build _ _ _ _ _ r hrow).2 ?_)
  exact ⟨fun _ => hd, fun _ => ha, fun _ => hb⟩

/-- Settles O50: the words are those of the first three rows of their table, and the three commands are one rule under
three truth tables. -/
theorem bitwiseCommands : Obligations.BitwiseCommands := by
  intro s rd rs1 rs2 hinv hregs
  have hexist := (s.hasRegs_iff _).1 hregs
  refine ⟨fun imm => ?_, exec_bitwise (op := .and) hinv hregs rfl, exec_bitwise (op := .or) hinv hregs rfl,
    exec_bitwise (op := .xor) hinv hregs rfl⟩
  exact List.map_congr_left (l := rowsBitShiftRender.take 3) (decode_bitwise_rows s.cfg imm (hexist rd (by simp))
    (hexist rs1 (by simp)) (hexist rs2 (by simp)))

/-! ### SHL and SHR (R136, R137) -/

/-- A count the port can carry is read as it is (48_shift.md R135). -/
theorem uint_of_lt {natw n : Nat} (h : n < 2 ^ natw) : uint natw n = n := Nat.mod_eq_of_lt h

theorem resultOf_shl {s : State} {n : Nat} (hn : n < 2 ^ s.cfg.natw) (rd rs1 : Reg) :
    resultOf (.shl rd rs1 n) s = .value rd (magx ((s.readReg rs1).val * 2 ^ n)) := by
  rw [resultOf, uint_of_lt hn, shlv_eq_magx]

theorem resultOf_shr {s : State} {n : Nat} (hn : n < 2 ^ s.cfg.natw) (rd rs1 : Reg) :
    resultOf (.shr rd rs1 n) s = valueOrFault rd (shrv (s.readReg rs1) n) := by
  rw [resultOf, uint_of_lt hn]

/-- SHR by the length itself gives `+[0]` (R137). -/
theorem shrv_length (v : BigVal) : shrv v v.mag.length = .ok BigVal.zero := by simp [shrv]

/-- A value divided by a power of two is no longer than the value. -/
theorem length_magx_tdiv_le {v : BigVal} (hv : v.canonical) (n : Nat) :
    (magx (v.val.tdiv (2 ^ n))).mag.length ≤ v.mag.length := by
  refine length_magx_le (List.length_pos_of_ne_nil hv.1.ne_nil) ?_
  rw [Int.natAbs_tdiv, natAbs_val]
  exact (Nat.div_le_self _ _).trans_lt (uval_lt v.mag)

/-- Settles O51: the word is that of the row of SHL, whose rule multiplies exactly; the frame writes the product or
raises CAPACITY. -/
theorem shlCommand : Obligations.ShlCommand := by
  intro s rd rs1 n _ hregs hn
  have hrow : (⟨0x48#8, .r2i, fun rd a _ n => .shl rd a n⟩ : Row) ∈ opcodeTable := List.mem_of_getElem? (i := 20) rfl
  have hword := decode_assemble_rd_rs1 hrow (.inr rfl) s.cfg (rd := rd) (a := rs1) n hregs
  rw [sampleImm_of_lt hn] at hword
  have hres := resultOf_shl hn rd rs1
  exact ⟨hword, exec_value hregs hres, exec_capacity hregs hres⟩

/-- Settles O52: the word is that of the row of SHR, whose rule faults beyond the length and otherwise yields the
truncated quotient, which is no longer than the source. -/
theorem shrCommand : Obligations.ShrCommand := by
  intro s rd rs1 n hinv hregs hn
  have hrow : (⟨0x49#8, .r2i, fun rd a _ n => .shr rd a n⟩ : Row) ∈ opcodeTable := List.mem_of_getElem? (i := 21) rfl
  have hword := decode_assemble_rd_rs1 hrow (.inr rfl) s.cfg (rd := rd) (a := rs1) n hregs
  rw [sampleImm_of_lt hn] at hword
  have hres := resultOf_shr hn rd rs1
  obtain ⟨hcan, hfit⟩ := hinv.read rs1
  refine ⟨hword, fun hlong => ?_, fun hle => ?_, fun hall => ?_⟩
  · rw [shrv_of_length_lt hlong] at hres
    exact exec_fault hregs hres
  · rw [shrv_eq_magx hle] at hres
    exact exec_value hregs hres (tooLong_mono s.cfg (length_magx_tdiv_le hcan n) hfit)
  · rw [hall, shrv_length] at hres
    rw [hall]
    exact exec_value hregs hres (tooLong_of_length_le_one hinv.1 le_rfl)

end Sys2Proof.Machine
end

section
/-! The families of 44_inc_dec.md and 49_render.md across two commands: POSTINC and POSTDEC, and the decimal round
trip. -/

namespace Sys2Proof.Machine

/-! ### The state after a command that wrote a value (10_state.md R24) -/

/-- In a legal state a register that exists reads back what was written to it. -/
theorem State.Inv.readReg_writeReg_self {s : State} (h : s.Inv) {r : Reg} (hr : r.toNat < s.cfg.nreg) (v : BigVal) :
    (s.writeReg r v).readReg r = v := by
  obtain ⟨-, hlen, -, -⟩ := h
  exact s.readReg_writeReg_self r v (hlen ▸ hr)

/-! ### POSTINC and POSTDEC (R107, 30_encoding.md R50) -/

/-- MOV into another register and then a command that writes a value into the source: the old value stands in the one
and the new value in the other. -/
theorem exec_mov_then_value {s : State} {t a : Reg} (hinv : s.Inv) (hregs : s.hasRegs [t, a] = true) (hne : t ≠ a)
    {i : Instr} (hi : i.regs = [a]) {z : Int} (hfit : tooLong s.cfg (magx z) = false)
    (hres : ∀ u : State, u.Inv → u.readReg a = s.readReg a → resultOf i u = .value a (magx z)) :
    ∃ s' s'', exec (.mov t a) s = .next s' ∧ exec i s' = .next s'' ∧ s''.readReg t = s.readReg a ∧
      (s''.readReg a).val = z := by
  have hexist := (s.hasRegs_iff _).1 hregs
  have ht := hexist t (by simp)
  have ha := hexist a (by simp)
  obtain ⟨hcan, hsource⟩ := hinv.read a
  have hmoved : ((s.writeReg t (s.readReg a)).complete []).Inv := hinv.writeReg t hcan hsource
  have hkept : ((s.writeReg t (s.readReg a)).complete []).readReg a = s.readReg a :=
    s.readReg_writeReg_ne (s.readReg a) hne.symm
  have hregs' : ((s.writeReg t (s.readReg a)).complete []).hasRegs i.regs = true := by
    rw [hi, State.hasRegs_iff]
    simpa using ha
  refine ⟨_, _, exec_value hregs rfl hsource, exec_value hregs' (hres _ hmoved hkept) hfit, ?_, ?_⟩
  · rw [State.readReg_complete, State.readReg_writeReg_ne _ _ hne, State.readReg_complete,
      hinv.readReg_writeReg_self ht]
  · rw [State.readReg_complete, hmoved.readReg_writeReg_self ha, val_magx]

/-- Settles O58: the expansions are MOV and INC or DEC, whose sums are exact on the value MOV left in place. -/
theorem postfixForms : Obligations.PostfixForms := by
  intro s t a hinv hregs hne
  refine ⟨rfl, rfl, fun hfit => ?_, fun hfit => ?_⟩
  · refine exec_mov_then_value hinv hregs hne rfl hfit fun u hu hread => ?_
    rw [resultOf_inc hu, hread]
  · refine exec_mov_then_value hinv hregs hne rfl hfit fun u hu hread => ?_
    rw [resultOf_dec hu, hread]

/-! ### Reading a numeral back (R144) -/

/-- The code of a digit above that of `0` is the digit (R145). -/
theorem toNat_digit {k : Nat} (h : k < 10) : (digit k).toNat - 0x30 = k := by
  interval_cases k <;> rfl

theorem digit_ne_chMinus {k : Nat} (h : k < 10) : digit k ≠ chMinus := by
  interval_cases k <;> decide

theorem readDecimal_append_singleton (x : Text) (ch : BitVec 8) :
    readDecimal (x ++ [ch]) = 10 * readDecimal x + (ch.toNat - 0x30) := by
  simp [readDecimal]

/-- The decimal numeral of a number reads back as the number. -/
theorem readDecimal_decNumeral (v : Nat) : readDecimal (decNumeral v) = v := by
  induction v using Nat.strong_induction_on with
  | _ v ih =>
    by_cases hv : v < 10
    · rw [decNumeral_of_lt hv]
      simpa [readDecimal] using toNat_digit hv
    · rw [decNumeral_of_not_lt hv, readDecimal_append_singleton, ih (v / 10) (by omega),
        toNat_digit (Nat.mod_lt v (by omega))]
      omega

/-- A decimal numeral begins with a digit, and no digit is `-`. -/
theorem decNumeral_eq_cons (v : Nat) : ∃ ch x, ch ≠ chMinus ∧ decNumeral v = ch :: x := by
  induction v using Nat.strong_induction_on with
  | _ v ih =>
    by_cases hv : v < 10
    · exact ⟨_, _, digit_ne_chMinus hv, decNumeral_of_lt hv⟩
    · obtain ⟨ch, x, hch, hx⟩ := ih (v / 10) (by omega)
      exact ⟨ch, x ++ [digit (v % 10)], hch, by rw [decNumeral_of_not_lt hv, hx, List.cons_append]⟩

/-- The text REND10 answers for an integer reads back as the integer. -/
theorem readSigned_text (z : Int) :
    readSigned ((if z < 0 then [0x2D#8] else []) ++ decNumeral z.natAbs) = z := by
  split_ifs with hneg
  · have hminus : 0x2D#8 = chMinus := rfl
    rw [List.singleton_append, readSigned, if_pos hminus, readDecimal_decNumeral]
    omega
  · obtain ⟨ch, x, hch, hx⟩ := decNumeral_eq_cons z.natAbs
    rw [List.nil_append, hx, readSigned, if_neg hch, ← hx, readDecimal_decNumeral]
    omega

theorem tooLong_of_maxbits_none {c : Config} (h : c.maxbits = none) (v : BigVal) : tooLong c v = false := by
  simp [tooLong, h]

/-- A native integer other than the minimum has an absolute value below `2^(NATW-1)` (00_scope.md R7). -/
theorem natAbs_sint_lt {natw imm : Nat} (hne : sint natw imm ≠ minNative natw) :
    (sint natw imm).natAbs < 2 ^ (natw - 1) := by
  have hlow : -(2 ^ (natw - 1) : Int) ≤ sint natw imm := BitVec.le_toInt _
  have hhigh : sint natw imm < 2 ^ (natw - 1) := BitVec.toInt_lt
  zify
  rw [minNative] at hne
  rw [abs_lt]
  omega

/-- Settles O57: FROMINT writes the integer in at most `NATW - 1` bits, which the accumulator holds, and the numeral
reads back as the integer. -/
theorem decimalRoundTrip : Obligations.DecimalRoundTrip := by
  intro s rd imm hinv hregs hmax haccw hne
  have ⟨⟨hnatw, _⟩, _⟩ := hinv
  have hread := hinv.readReg_writeReg_self ((s.hasRegs_iff _).1 hregs rd (by simp)) (magx (sint s.cfg.natw imm))
  have hlen : (magx (sint s.cfg.natw imm)).mag.length ≤ s.cfg.natw - 1 :=
    length_magx_le (by omega) (natAbs_sint_lt hne)
  have htext := render10_of_fits (canonical_magx (sint s.cfg.natw imm)) fun k hk => hlen.trans (haccw k hk)
  rw [val_magx] at htext
  refine ⟨_, _, _, exec_value hregs (resultOf_fromint hne rd) (tooLong_of_maxbits_none hmax _),
    exec_text (x := _) hregs ?_, State.respPort_complete .., rfl, readSigned_text _⟩
  rw [resultOf, State.readReg_complete, hread]
  exact congrArg textOrFault htext

end Sys2Proof.Machine
end
